-- ==== Sys2Proof/Word.lean ====
section
/-! DEFINITION. The machine's unsigned quantities, by width (00_scope.md R5: nothing is signed). -/

namespace Sys2Proof

/-- A nibble: a register index or a sprite height (R91). -/
abbrev Nibble := BitVec 4

/-- A byte: a memory cell, a V register, a timer, the immediate `nn`. -/
abbrev Byte := BitVec 8

/-- The 12-bit address immediate `nnn` (R91). -/
abbrev Imm12 := BitVec 12

/-- A 16-bit value: an instruction word, `pc`, `I`, a stack slot. -/
abbrev Word := BitVec 16

/-- The seed of the random source (R32, D25). -/
abbrev Seed := BitVec 32

end Sys2Proof
end

