-- ==== Sys2Proof/Syntax.lean ====
section
/-! DEFINITION. The 35 instructions, one constructor per row of spec/opcode_table.json, in the
table's order (30_encoding.md R95). Fields are those of R91: x, y, n nibbles, nn a byte, nnn 12 bits. -/

namespace Sys2Proof

inductive Instr where
  /-- 00E0, clear screen. -/
  | cls
  /-- 00EE, return. -/
  | ret
  /-- 0nnn other than 00E0 and 00EE, legacy system call. -/
  | sys (nnn : Imm12)
  /-- 1nnn, jump. -/
  | jp (nnn : Imm12)
  /-- 2nnn, call. -/
  | call (nnn : Imm12)
  /-- 3xnn, skip if Vx equals nn. -/
  | seImm (x : Nibble) (nn : Byte)
  /-- 4xnn, skip if Vx differs from nn. -/
  | sneImm (x : Nibble) (nn : Byte)
  /-- 5xy0, skip if Vx equals Vy. -/
  | seReg (x y : Nibble)
  /-- 6xnn, load immediate. -/
  | ldImm (x : Nibble) (nn : Byte)
  /-- 7xnn, add immediate. -/
  | addImm (x : Nibble) (nn : Byte)
  /-- 8xy0, assign. -/
  | ldReg (x y : Nibble)
  /-- 8xy1, OR. -/
  | orReg (x y : Nibble)
  /-- 8xy2, AND. -/
  | andReg (x y : Nibble)
  /-- 8xy3, XOR. -/
  | xorReg (x y : Nibble)
  /-- 8xy4, ADD with carry out. -/
  | addReg (x y : Nibble)
  /-- 8xy5, SUB with borrow. -/
  | sub (x y : Nibble)
  /-- 8xy6, shift right; y is encoded and, by default, not used. -/
  | shr (x y : Nibble)
  /-- 8xy7, reversed subtraction. -/
  | subn (x y : Nibble)
  /-- 8xyE, shift left; y is encoded and, by default, not used. -/
  | shl (x y : Nibble)
  /-- 9xy0, skip if Vx differs from Vy. -/
  | sneReg (x y : Nibble)
  /-- Annn, load index. -/
  | ldI (nnn : Imm12)
  /-- Bnnn, jump with offset V0. -/
  | jpV0 (nnn : Imm12)
  /-- Cxnn, random byte. -/
  | rnd (x : Nibble) (nn : Byte)
  /-- Dxyn, draw sprite. -/
  | drw (x y n : Nibble)
  /-- Ex9E, skip if key pressed. -/
  | skp (x : Nibble)
  /-- ExA1, skip if key not pressed. -/
  | sknp (x : Nibble)
  /-- Fx07, read the delay timer. -/
  | ldVxDt (x : Nibble)
  /-- Fx0A, wait for a key. -/
  | ldVxK (x : Nibble)
  /-- Fx15, write the delay timer. -/
  | ldDtVx (x : Nibble)
  /-- Fx18, write the sound timer. -/
  | ldStVx (x : Nibble)
  /-- Fx1E, add to the index register. -/
  | addI (x : Nibble)
  /-- Fx29, font address. -/
  | ldF (x : Nibble)
  /-- Fx33, store the decimal digits. -/
  | ldB (x : Nibble)
  /-- Fx55, store V0..Vx. -/
  | ldIVx (x : Nibble)
  /-- Fx65, load V0..Vx. -/
  | ldVxI (x : Nibble)
  deriving DecidableEq, Repr

end Sys2Proof
end

