-- ==== Sys2Proof/Decode.lean ====
section
/-! DEFINITION. Decoding by the procedure of 30_encoding.md R94, the opcode map of R95 as a table,
and the encoder. Fields are pulled out of the word here and nowhere else (R91). -/

namespace Sys2Proof

/-- The family, `w[15:12]` (R91). -/
def fieldOp (w : Word) : Nibble := w.extractLsb' 12 4
/-- `x`, `w[11:8]` (R91). -/
def fieldX (w : Word) : Nibble := w.extractLsb' 8 4
/-- `y`, `w[7:4]` (R91). -/
def fieldY (w : Word) : Nibble := w.extractLsb' 4 4
/-- `n`, `w[3:0]` (R91). -/
def fieldN (w : Word) : Nibble := w.extractLsb' 0 4
/-- `nn`, `w[7:0]` (R91). -/
def fieldNN (w : Word) : Byte := w.extractLsb' 0 8
/-- `nnn`, `w[11:0]` (R91). -/
def fieldNNN (w : Word) : Imm12 := w.extractLsb' 0 12

/-- Family 0: CLS and RET exactly, every other word SYS (R94 steps 1 and 2). -/
def decodeFamily0 (w : Word) : Instr :=
  if w = 0x00E0#16 then .cls else if w = 0x00EE#16 then .ret else .sys (fieldNNN w)

/-- Family 8: the low nibble selects (R94 step 5). -/
def decodeFamily8 (w : Word) : Option Instr :=
  match fieldN w with
  | 0x0#4 => some (.ldReg (fieldX w) (fieldY w))
  | 0x1#4 => some (.orReg (fieldX w) (fieldY w))
  | 0x2#4 => some (.andReg (fieldX w) (fieldY w))
  | 0x3#4 => some (.xorReg (fieldX w) (fieldY w))
  | 0x4#4 => some (.addReg (fieldX w) (fieldY w))
  | 0x5#4 => some (.sub (fieldX w) (fieldY w))
  | 0x6#4 => some (.shr (fieldX w) (fieldY w))
  | 0x7#4 => some (.subn (fieldX w) (fieldY w))
  | 0xE#4 => some (.shl (fieldX w) (fieldY w))
  | _ => none

/-- Family E: the low byte selects (R94 step 6). -/
def decodeFamilyE (w : Word) : Option Instr :=
  match fieldNN w with
  | 0x9E#8 => some (.skp (fieldX w))
  | 0xA1#8 => some (.sknp (fieldX w))
  | _ => none

/-- Family F: the low byte selects (R94 step 7). -/
def decodeFamilyF (w : Word) : Option Instr :=
  match fieldNN w with
  | 0x07#8 => some (.ldVxDt (fieldX w))
  | 0x0A#8 => some (.ldVxK (fieldX w))
  | 0x15#8 => some (.ldDtVx (fieldX w))
  | 0x18#8 => some (.ldStVx (fieldX w))
  | 0x1E#8 => some (.addI (fieldX w))
  | 0x29#8 => some (.ldF (fieldX w))
  | 0x33#8 => some (.ldB (fieldX w))
  | 0x55#8 => some (.ldIVx (fieldX w))
  | 0x65#8 => some (.ldVxI (fieldX w))
  | _ => none

/-- Decode one instruction word; `none` is the verdict UNRECOGNIZED (R94, R96). -/
def decodeWord (w : Word) : Option Instr :=
  match fieldOp w with
  | 0x0#4 => some (decodeFamily0 w)
  | 0x1#4 => some (.jp (fieldNNN w))
  | 0x2#4 => some (.call (fieldNNN w))
  | 0x3#4 => some (.seImm (fieldX w) (fieldNN w))
  | 0x4#4 => some (.sneImm (fieldX w) (fieldNN w))
  | 0x5#4 => if fieldN w = 0#4 then some (.seReg (fieldX w) (fieldY w)) else none
  | 0x6#4 => some (.ldImm (fieldX w) (fieldNN w))
  | 0x7#4 => some (.addImm (fieldX w) (fieldNN w))
  | 0x8#4 => decodeFamily8 w
  | 0x9#4 => if fieldN w = 0#4 then some (.sneReg (fieldX w) (fieldY w)) else none
  | 0xA#4 => some (.ldI (fieldNNN w))
  | 0xB#4 => some (.jpV0 (fieldNNN w))
  | 0xC#4 => some (.rnd (fieldX w) (fieldNN w))
  | 0xD#4 => some (.drw (fieldX w) (fieldY w) (fieldN w))
  | 0xE#4 => decodeFamilyE w
  | 0xF#4 => decodeFamilyF w
  | _ => none

/-- Why bytes are not an instruction. -/
inductive DecodeError where
  /-- The word matches no row of the opcode map (R96). -/
  | unrecognized (w : Word)
  /-- Fewer than two bytes were given. -/
  | truncated
  deriving DecidableEq, Repr

/-- What the decoder says of a sequence of bytes. -/
inductive DecodeResult where
  | instr (i : Instr) (rest : List Byte)
  | rejected (e : DecodeError)
  deriving DecidableEq, Repr

/-- Two bytes as one instruction word, the first byte the high one (R63). -/
def wordOfBytes (hi lo : Byte) : Word := hi ++ lo

/-- Decode the first instruction of any bytes, big-endian (R63, R90, R94). -/
def decode : List Byte → DecodeResult
  | hi :: lo :: rest =>
    match decodeWord (wordOfBytes hi lo) with
    | some i => .instr i rest
    | none => .rejected (.unrecognized (wordOfBytes hi lo))
  | _ => .rejected .truncated

/-- A word's two bytes as memory holds them, high byte first (R63). -/
def bytesOfWord (w : Word) : List Byte := [w.extractLsb' 8 8, w.extractLsb' 0 8]

/-- The instruction word of an opcode-table row: its low `nbits` bits, the bits above them zero. -/
def tableWord (nbits w : Nat) : Word := BitVec.ofNat 16 (w % 2 ^ nbits)

/-- The decoder's answer for an opcode-table word, laid out high byte first and decoded. -/
def decodeTableWord (nbits w : Nat) : Option Instr :=
  match decode (bytesOfWord (tableWord nbits w)) with
  | .instr i _ => some i
  | .rejected _ => none

/-! ### The opcode map as a table (R95) -/

/-- A row of the opcode map: the word is selected when `w &&& mask = value`. -/
structure OpcodeRow where
  mask : Word
  value : Word
  build : Word → Instr

/-- Rows 1 to 10 of R95. -/
def opcodeRows1 : List OpcodeRow := [
  ⟨0xFFFF#16, 0x00E0#16, fun _ => .cls⟩,
  ⟨0xFFFF#16, 0x00EE#16, fun _ => .ret⟩,
  ⟨0xF000#16, 0x0000#16, fun w => .sys (fieldNNN w)⟩,
  ⟨0xF000#16, 0x1000#16, fun w => .jp (fieldNNN w)⟩,
  ⟨0xF000#16, 0x2000#16, fun w => .call (fieldNNN w)⟩,
  ⟨0xF000#16, 0x3000#16, fun w => .seImm (fieldX w) (fieldNN w)⟩,
  ⟨0xF000#16, 0x4000#16, fun w => .sneImm (fieldX w) (fieldNN w)⟩,
  ⟨0xF00F#16, 0x5000#16, fun w => .seReg (fieldX w) (fieldY w)⟩,
  ⟨0xF000#16, 0x6000#16, fun w => .ldImm (fieldX w) (fieldNN w)⟩,
  ⟨0xF000#16, 0x7000#16, fun w => .addImm (fieldX w) (fieldNN w)⟩]

/-- Rows 11 to 20 of R95. -/
def opcodeRows2 : List OpcodeRow := [
  ⟨0xF00F#16, 0x8000#16, fun w => .ldReg (fieldX w) (fieldY w)⟩,
  ⟨0xF00F#16, 0x8001#16, fun w => .orReg (fieldX w) (fieldY w)⟩,
  ⟨0xF00F#16, 0x8002#16, fun w => .andReg (fieldX w) (fieldY w)⟩,
  ⟨0xF00F#16, 0x8003#16, fun w => .xorReg (fieldX w) (fieldY w)⟩,
  ⟨0xF00F#16, 0x8004#16, fun w => .addReg (fieldX w) (fieldY w)⟩,
  ⟨0xF00F#16, 0x8005#16, fun w => .sub (fieldX w) (fieldY w)⟩,
  ⟨0xF00F#16, 0x8006#16, fun w => .shr (fieldX w) (fieldY w)⟩,
  ⟨0xF00F#16, 0x8007#16, fun w => .subn (fieldX w) (fieldY w)⟩,
  ⟨0xF00F#16, 0x800E#16, fun w => .shl (fieldX w) (fieldY w)⟩,
  ⟨0xF00F#16, 0x9000#16, fun w => .sneReg (fieldX w) (fieldY w)⟩]

/-- Rows 21 to 35 of R95. -/
def opcodeRows3 : List OpcodeRow := [
  ⟨0xF000#16, 0xA000#16, fun w => .ldI (fieldNNN w)⟩,
  ⟨0xF000#16, 0xB000#16, fun w => .jpV0 (fieldNNN w)⟩,
  ⟨0xF000#16, 0xC000#16, fun w => .rnd (fieldX w) (fieldNN w)⟩,
  ⟨0xF000#16, 0xD000#16, fun w => .drw (fieldX w) (fieldY w) (fieldN w)⟩,
  ⟨0xF0FF#16, 0xE09E#16, fun w => .skp (fieldX w)⟩,
  ⟨0xF0FF#16, 0xE0A1#16, fun w => .sknp (fieldX w)⟩,
  ⟨0xF0FF#16, 0xF007#16, fun w => .ldVxDt (fieldX w)⟩,
  ⟨0xF0FF#16, 0xF00A#16, fun w => .ldVxK (fieldX w)⟩,
  ⟨0xF0FF#16, 0xF015#16, fun w => .ldDtVx (fieldX w)⟩,
  ⟨0xF0FF#16, 0xF018#16, fun w => .ldStVx (fieldX w)⟩,
  ⟨0xF0FF#16, 0xF01E#16, fun w => .addI (fieldX w)⟩,
  ⟨0xF0FF#16, 0xF029#16, fun w => .ldF (fieldX w)⟩,
  ⟨0xF0FF#16, 0xF033#16, fun w => .ldB (fieldX w)⟩,
  ⟨0xF0FF#16, 0xF055#16, fun w => .ldIVx (fieldX w)⟩,
  ⟨0xF0FF#16, 0xF065#16, fun w => .ldVxI (fieldX w)⟩]

/-- The 35 rows of R95 in table order. -/
def opcodeTable : List OpcodeRow := opcodeRows1 ++ opcodeRows2 ++ opcodeRows3

/-- Whether the row selects the word (R95). -/
def OpcodeRow.selects (r : OpcodeRow) (w : Word) : Bool := w &&& r.mask == r.value

/-- Decoding by the table: the first row that selects the word (R95). -/
def decodeByTable (w : Word) : Option Instr :=
  (opcodeTable.find? (·.selects w)).map (·.build w)

/-! ### The encoder -/

/-- Format NNN (R92). -/
def wordNNN (op : Nibble) (nnn : Imm12) : Word := op ++ nnn
/-- Format XNN, and format X with a fixed low byte (R92). -/
def wordXNN (op x : Nibble) (nn : Byte) : Word := op ++ x ++ nn
/-- Format XYN, and format XY with a fixed low nibble (R92). -/
def wordXYN (op x y n : Nibble) : Word := op ++ x ++ y ++ n

/-- The instruction word, from the patterns of R95. -/
def encode : Instr → Word
  | .cls => 0x00E0#16
  | .ret => 0x00EE#16
  | .sys nnn => wordNNN 0x0#4 nnn
  | .jp nnn => wordNNN 0x1#4 nnn
  | .call nnn => wordNNN 0x2#4 nnn
  | .seImm x nn => wordXNN 0x3#4 x nn
  | .sneImm x nn => wordXNN 0x4#4 x nn
  | .seReg x y => wordXYN 0x5#4 x y 0x0#4
  | .ldImm x nn => wordXNN 0x6#4 x nn
  | .addImm x nn => wordXNN 0x7#4 x nn
  | .ldReg x y => wordXYN 0x8#4 x y 0x0#4
  | .orReg x y => wordXYN 0x8#4 x y 0x1#4
  | .andReg x y => wordXYN 0x8#4 x y 0x2#4
  | .xorReg x y => wordXYN 0x8#4 x y 0x3#4
  | .addReg x y => wordXYN 0x8#4 x y 0x4#4
  | .sub x y => wordXYN 0x8#4 x y 0x5#4
  | .shr x y => wordXYN 0x8#4 x y 0x6#4
  | .subn x y => wordXYN 0x8#4 x y 0x7#4
  | .shl x y => wordXYN 0x8#4 x y 0xE#4
  | .sneReg x y => wordXYN 0x9#4 x y 0x0#4
  | .ldI nnn => wordNNN 0xA#4 nnn
  | .jpV0 nnn => wordNNN 0xB#4 nnn
  | .rnd x nn => wordXNN 0xC#4 x nn
  | .drw x y n => wordXYN 0xD#4 x y n
  | .skp x => wordXNN 0xE#4 x 0x9E#8
  | .sknp x => wordXNN 0xE#4 x 0xA1#8
  | .ldVxDt x => wordXNN 0xF#4 x 0x07#8
  | .ldVxK x => wordXNN 0xF#4 x 0x0A#8
  | .ldDtVx x => wordXNN 0xF#4 x 0x15#8
  | .ldStVx x => wordXNN 0xF#4 x 0x18#8
  | .addI x => wordXNN 0xF#4 x 0x1E#8
  | .ldF x => wordXNN 0xF#4 x 0x29#8
  | .ldB x => wordXNN 0xF#4 x 0x33#8
  | .ldIVx x => wordXNN 0xF#4 x 0x55#8
  | .ldVxI x => wordXNN 0xF#4 x 0x65#8

end Sys2Proof
end

