-- ==== Sys2Proof/Config.lean ====
section
/-! DEFINITION. The parameters of the block (00_scope.md R4): the fixed ones as constants, the four
that the source does not fix as fields of `Config`. Every operation of the block is defined under any
`Config` (Machine/Report.lean, Machine/Block.lean); the defaults of R4 are `Machine.params`. -/

namespace Sys2Proof

/-- `MEM_SIZE` (R4). -/
def Config.memSize : Nat := 4096
/-- `PROGRAM_ORIGIN` (R4). -/
def Config.programOrigin : Nat := 0x200
/-- `MAX_ROM` = `MEM_SIZE - PROGRAM_ORIGIN` (R4). -/
def Config.maxRom : Nat := 3584
/-- `RNG_A` (R4, R239). -/
def Config.rngA : Nat := 1103515245
/-- `RNG_C` (R4, R239). -/
def Config.rngC : Nat := 12345
/-- `RNG_M` = 0x7FFFFFFF (R4, R239, D26). -/
def Config.rngM : Nat := 2147483647

/-- The register a shift takes its operand from (`SHIFT_SOURCE`, D11). -/
inductive ShiftSource where
  | vx
  | vy
  deriving DecidableEq, Repr

/-- The parameters the source leaves to the implementation (R4, U3, U5, U10, U11). -/
structure Config where
  /-- `FONT`, the 80 bytes at the base of memory (D24). -/
  font : Vector Byte 80
  /-- `SHIFT_SOURCE` (D11). -/
  shiftSource : ShiftSource
  /-- `KEY_WAIT_CHOICE`: the key Fx0A reports for a key matrix with a key pressed (D22). -/
  keyWaitChoice : Vector Bool 16 → Nibble
  /-- The seed after one call of `rng_next` (D25, D26). -/
  rngNext : Seed → Seed

/-- What R232 asks of `KEY_WAIT_CHOICE`: with a key pressed, the choice is a pressed key (D22, U3). -/
def Config.PicksPressed (cfg : Config) : Prop :=
  ∀ key : Vector Bool 16, (∃ k : Nibble, key[k.toNat]'k.isLt = true) →
    key[(cfg.keyWaitChoice key).toNat]'(cfg.keyWaitChoice key).isLt = true

end Sys2Proof
end

