-- ==== Sys2Proof/Machine/Params.lean ====
section
/-! DEFINITION. The default values of the block's parameters (00_scope.md R4) and the reset contents
of memory (70_reset_and_hazards.md R290). -/

namespace Sys2Proof.Machine

/-- One font glyph: five bytes, one a row (R62). -/
def glyph (a b c d e : Byte) : Vector Byte 5 := #v[a, b, c, d, e]

/-- The glyphs of the digits 0 to 7 (R62). PRESUMED (log 9). -/
def fontLow : Vector Byte 40 :=
  glyph 0xF0 0x90 0x90 0x90 0xF0 ++ glyph 0x20 0x60 0x20 0x20 0x70 ++
  glyph 0xF0 0x10 0xF0 0x80 0xF0 ++ glyph 0xF0 0x10 0xF0 0x10 0xF0 ++
  glyph 0x90 0x90 0xF0 0x10 0x10 ++ glyph 0xF0 0x80 0xF0 0x10 0xF0 ++
  glyph 0xF0 0x80 0xF0 0x90 0xF0 ++ glyph 0xF0 0x10 0x20 0x40 0x40

/-- The glyphs of the digits 8 to F (R62). PRESUMED (log 9). -/
def fontHigh : Vector Byte 40 :=
  glyph 0xF0 0x90 0xF0 0x90 0xF0 ++ glyph 0xF0 0x90 0xF0 0x10 0xF0 ++
  glyph 0xF0 0x90 0xF0 0x90 0x90 ++ glyph 0xE0 0x90 0xE0 0x90 0xE0 ++
  glyph 0xF0 0x80 0x80 0x80 0xF0 ++ glyph 0xE0 0x90 0x90 0x90 0xE0 ++
  glyph 0xF0 0x80 0xF0 0x80 0xF0 ++ glyph 0xF0 0x80 0xF0 0x80 0x80

/-- The default `FONT` (R62, D24). -/
def defaultFont : Vector Byte 80 := fontLow ++ fontHigh

/-- The lowest pressed key, the default `KEY_WAIT_CHOICE` (R232, D22). -/
def lowestPressed (key : Vector Bool 16) : Nibble := BitVec.ofNat 4 (key.toList.findIdx id)

/-- The linear-congruential step over exact integers, the default `rng_next` (R239, D25, D26). -/
def lcgNext (seed : Seed) : Seed :=
  BitVec.ofNat 32 ((seed.toNat * Config.rngA + Config.rngC) % Config.rngM)

/-- The parameters this model runs with: the defaults of R4. -/
def params : Config where
  font := defaultFont
  shiftSource := .vx
  keyWaitChoice := lowestPressed
  rngNext := lcgNext

/-- What an unlisted address of memory reads as: what `reset` leaves there under the default `FONT`,
the font at 0..79 and zero elsewhere (R290). A reset under another `FONT` lists the cells in which that
font differs (`State.resetUnder`), so this fixes how memory is written down and no font (log 3). -/
def resetByte (a : Nat) : Byte := if h : a < 80 then defaultFont[a] else 0#8

end Sys2Proof.Machine
end

