-- ==== Sys2Proof/Machine/State.lean ====
section
/-! DEFINITION. The twelve state elements of the block (10_state.md R20), the reasons an operation
has no successor state, the telemetry of a step, and the state after reset (R290). -/

namespace Sys2Proof.Machine

/-- Memory (R21, R60): the cells that differ from their reset contents, by rising address.
An unlisted address reads as `resetByte` (log 3). -/
abbrev Memory := List Host.Cell

/-- The framebuffer (R29): row y is the y-th entry and column x its bit x (log 7). -/
abbrev Framebuffer := Vector (BitVec 64) 32

/-- The state of the block, R20's twelve elements and no more. -/
structure State where
  /-- `mem`, R21. -/
  mem : Memory
  /-- The general registers V0..VF, R22; VF is the flag, R23. -/
  V : Vector Byte 16
  /-- The index register, R24. -/
  I : Word
  /-- The program counter, R25. -/
  pc : Word
  /-- The call stack, R26. -/
  stack : Vector Word 16
  /-- The stack pointer, 0..16, R27 (log 6). -/
  sp : Fin 17
  /-- The delay timer, R28. -/
  DT : Byte
  /-- The sound timer, R28. -/
  ST : Byte
  /-- The framebuffer, R29. -/
  fb : Framebuffer
  /-- The key matrix, R30. -/
  key : Vector Bool 16
  /-- The draw flag, R31. -/
  draw : Bool
  /-- The state of the random source, R32. -/
  seed : Seed
  deriving DecidableEq, Repr

/-- Why an operation has no successor state (R7, R266). -/
inductive Fault where
  /-- Raised by `step` when `pc > 4094` (R67, D5). Safe: the model stops where a machine does
  something the source does not say. -/
  | fetchOutOfBounds
  /-- Raised by every operation but `reset` before the first `reset` (R291, D3). Safe. -/
  | notReset
  deriving DecidableEq, Repr

/-- Why an input has no meaning. -/
inductive Refusal where
  /-- Raised by an arm of `exec` whose instruction has no meaning yet. Safe. -/
  | notModelled (mnemonic : String)
  /-- Raised by `set_key` for an index outside 0..15, no legal input (R240, D32, U17). Safe. -/
  | illegalKeyIndex (k : Nat)
  deriving DecidableEq, Repr

/-- The `anomaly` output of a step (R260). -/
inductive Anomaly where
  | none
  | unimplementedOpcode
  | stackOverflow
  | stackUnderflow
  | memoryBoundsViolation
  deriving DecidableEq, Repr

/-- The two outputs of a step (R124). They are functions of the step, not state (log 4). -/
structure Report where
  drawOccurred : Bool
  anomaly : Anomaly
  deriving DecidableEq, Repr

/-- The complete effect of an executed word: the next state and the step's outputs (R120). -/
structure Effect where
  state : State
  report : Report
  deriving DecidableEq, Repr

/-- `reset(seed_in)` under the default `FONT` (R290): no cell of memory is listed, and the state depends
on nothing but the seed. `State.resetUnder` is the same under any `FONT`. -/
def State.resetWith (seedIn : Seed) : State where
  mem := []
  V := Vector.replicate 16 0#8
  I := 0#16
  pc := BitVec.ofNat 16 Config.programOrigin
  stack := Vector.replicate 16 0#16
  sp := 0
  DT := 0#8
  ST := 0#8
  fb := Vector.replicate 32 0#64
  key := Vector.replicate 16 false
  draw := true
  seed := seedIn

/-- The machine right after `reset(1)`. The seed is an input of `reset` (R241, U12); the value 1 is
this model's. DESIGN CHOICE, unsafe (log 1). -/
def State.reset : State := State.resetWith 1#32

end Sys2Proof.Machine
end

