-- ==== Sys2Proof/Machine/Ops.lean ====
section
/-! DEFINITION. The named operations over memory, program counter, stack, framebuffer, keys and the
random source, and the absorption of an anomaly (60_exceptions.md R270), each written once. -/

namespace Sys2Proof.Machine

/-! ### Memory (20_memory.md) -/

/-- `InRange(a)` on an exact integer address (R6). -/
abbrev InRange (a : Nat) : Prop := a ≤ 4095

/-- The byte listed for an address, if one is. -/
def Memory.lookup (a : Nat) : Memory → Option Byte
  | [] => none
  | (b, v) :: m => if a = b then some v else Memory.lookup a m

/-- `MemRead(a, 1)` (R6): the listed byte, else the reset contents. -/
def Memory.read (m : Memory) (a : Nat) : Byte := (Memory.lookup a m).getD (resetByte a)

/-- Put a cell in front of a memory unless it holds its reset contents. -/
def Memory.cons (a : Nat) (v : Byte) (m : Memory) : Memory :=
  if v = resetByte a then m else (a, v) :: m

/-- `MemWrite(a, 1, v)` (R6), keeping the canonical form. -/
def Memory.write : Memory → Nat → Byte → Memory
  | [], a, v => Memory.cons a v []
  | (b, w) :: m, a, v =>
    if a < b then Memory.cons a v ((b, w) :: m)
    else if a = b then Memory.cons a v m
    else (b, w) :: Memory.write m a v

/-- The canonical form: addresses strictly rising and in range, no cell at its reset contents. -/
abbrev Memory.wf (m : Memory) : Prop :=
  m.Pairwise (fun c d => c.1 < d.1) ∧ ∀ c ∈ m, InRange c.1 ∧ c.2 ≠ resetByte c.1

/-- Bytes written at ascending addresses from `a`, unconditionally (the loader, R292). -/
def Memory.writeAll : Memory → Nat → List Byte → Memory
  | m, _, [] => m
  | m, a, v :: vs => Memory.writeAll (m.write a v) (a + 1) vs

/-- The store loop of Fx33 and Fx55: each byte has its own bounds test, and the first address out of
range abandons the rest and is reported (R66, D16). -/
def storeBytes : Memory → Nat → List Byte → Memory × Bool
  | m, _, [] => (m, false)
  | m, a, v :: vs => if InRange a then storeBytes (m.write a v) (a + 1) vs else (m, true)

/-- The load loop of Fx65 and Dxyn: up to `n` bytes at ascending addresses from `a`, cut at the first
address out of range, which is reported (R66, D16). -/
def loadBytes (m : Memory) : Nat → Nat → List Byte × Bool
  | _, 0 => ([], false)
  | a, n + 1 =>
    if InRange a then (m.read a :: (loadBytes m (a + 1) n).1, (loadBytes m (a + 1) n).2)
    else ([], true)

/-! ### Program counter (40_step_cycle.md R122) -/

/-- `pc <- (pc + 2) mod 65536`. -/
def State.advance (s : State) : State := { s with pc := s.pc + 2#16 }

/-- The skip class: `pc + 4` if the condition holds, else `pc + 2` (R122). -/
def State.skipIf (cond : Bool) (s : State) : State :=
  { s with pc := if cond then s.pc + 4#16 else s.pc + 2#16 }

/-- `pc <- t`. -/
def State.jumpTo (t : Word) (s : State) : State := { s with pc := t }

/-- Fetch (R121): the word at `pc`, high byte first; none when a byte is out of range (R67). -/
def State.fetch (s : State) : Option Word :=
  if InRange s.pc.toNat ∧ InRange (s.pc.toNat + 1) then
    some (wordOfBytes (s.mem.read s.pc.toNat) (s.mem.read (s.pc.toNat + 1)))
  else none

/-! ### Effects and anomalies -/

/-- The report of a step that neither draws nor meets an anomaly. -/
def Report.quiet : Report := ⟨false, .none⟩

/-- An effect with nothing to report. -/
def quietly (s : State) : Effect := ⟨s, Report.quiet⟩

/-- Absorbing an anomaly (R270): it saves nothing, enters nothing and changes no mode; the
instruction is dropped, `pc` advances by 2 and the step reports the anomaly. -/
def absorb (a : Anomaly) (s : State) : Effect := ⟨s.advance, ⟨false, a⟩⟩

/-- The anomaly of a multi-byte operation: a bounds violation if the loop was cut (R66, R264). -/
def boundsAnomaly (violated : Bool) : Anomaly := if violated then .memoryBoundsViolation else .none

/-- An executed word has a next state (R7). -/
def Effect.outcome (e : Effect) : Host.Outcome State Fault Refusal := .next e.state

/-- The numbers this spec gives the anomalies (R267, D28). -/
def Anomaly.code : Anomaly → BitVec 3
  | .none => 0#3
  | .unimplementedOpcode => 1#3
  | .stackOverflow => 2#3
  | .stackUnderflow => 3#3
  | .memoryBoundsViolation => 4#3

/-! ### The call stack (10_state.md R26) -/

/-- Push: write `stack[sp]`, then add 1 to `sp` (R26, D15). -/
def State.push (s : State) (ret : Word) (h : s.sp.val < 16) : State :=
  { s with stack := s.stack.set s.sp.val ret h, sp := ⟨s.sp.val + 1, by omega⟩ }

/-- The value a pop gives: `stack[sp - 1]` (R26). -/
def State.top (s : State) : Word := s.stack[s.sp.val - 1]'(by omega)

/-- Pop: subtract 1 from `sp`; the slot keeps its value (R26, D15). -/
def State.pop (s : State) : State := { s with sp := ⟨s.sp.val - 1, by omega⟩ }

/-! ### The framebuffer (10_state.md R29, 44_display.md R211) -/

/-- The cell `fb[y][x]` (R29). -/
def Framebuffer.cell (fb : Framebuffer) (y : Fin 32) (x : Fin 64) : Bool := fb[y.val].getLsbD x.val

/-- All cells 0 (R210). -/
def Framebuffer.blank : Framebuffer := Vector.replicate 32 0#64

/-- `fb[y][x] <- fb[y][x] ^ 1` (R211). -/
def Framebuffer.toggle (fb : Framebuffer) (y : Fin 32) (x : Fin 64) : Framebuffer :=
  fb.set y.val (fb[y.val] ^^^ BitVec.twoPow 64 x.val)

/-- The framebuffer and whether a collision has occurred, while a sprite is drawn. -/
abbrev Canvas := Framebuffer × Bool

/-- One pixel of a sprite: a set bit toggles the cell, and a cell that was on is a collision
(R211, R212). -/
def drawPixel (y : Fin 32) (x : Fin 64) (on : Bool) (c : Canvas) : Canvas :=
  if on then (Framebuffer.toggle c.1 y x, c.2 || Framebuffer.cell c.1 y x) else c

/-- The screen row of sprite row `r`: `(py + r) mod 32` (R211). -/
def spriteRow (py : Byte) (r : Nat) : Fin 32 := Fin.ofNat 32 (py.toNat + r)

/-- The screen column of sprite column `c`: `(px + c) mod 64` (R211). -/
def spriteCol (px : Byte) (c : Nat) : Fin 64 := Fin.ofNat 64 (px.toNat + c)

/-- One sprite row of 8 pixels, bit 7 leftmost (R211, D19). -/
def drawRow (px : Byte) (y : Fin 32) (b : Byte) (c : Canvas) : Canvas :=
  (List.range 8).foldl (fun acc k => drawPixel y (spriteCol px k) (b.getLsbD (7 - k)) acc) c

/-- The sprite rows `r, r + 1, ...`, one byte each (R211). -/
def drawRows (px py : Byte) : Nat → List Byte → Canvas → Canvas
  | _, [], c => c
  | r, b :: bs, c => drawRows px py (r + 1) bs (drawRow px (spriteRow py r) b c)

/-! ### Keys and the random source (45_keys_timers_rng.md) -/

/-- `key[k]` (R30). -/
def State.pressed (s : State) (k : Nibble) : Bool := s.key[k.toNat]'(k.isLt)

/-- Whether any key is pressed (R232). -/
def State.anyPressed (s : State) : Bool := s.key.toList.any id

/-- The random byte of a seed: `seed[7:0]` (R239). -/
def randomByte (seed : Seed) : Byte := seed.extractLsb' 0 8

end Sys2Proof.Machine
end

