-- ==== Sys2Proof/Machine/Operands.lean ====
section
/-! DEFINITION. Reading and writing operands: the V registers (10_state.md R22), immediates (30_encoding.md
R93), the shift source (D11), and the addresses and bytes of the multi-byte instructions (43_index_memory.md R196). -/

namespace Sys2Proof.Machine

/-- `V[x]` (R22). -/
def State.reg (s : State) (x : Nibble) : Byte := s.V[x.toNat]'(x.isLt)

/-- `V[x] <- v` (R22): no register is hardwired. -/
def State.setReg (s : State) (x : Nibble) (v : Byte) : State := { s with V := s.V.set x.toNat v x.isLt }

/-- The flag register VF (R23). -/
abbrev flagReg : Nibble := 0xF#4

/-- `zext_16(nnn)` (R93). -/
def zextImm (nnn : Imm12) : Word := nnn.zeroExtend 16

/-- `zext_16(v)` of a register (R143, R191). -/
def zextByte (v : Byte) : Word := v.zeroExtend 16

/-- `v[3:0]` (R192, R230). -/
def lowNibble (v : Byte) : Nibble := v.extractLsb' 0 4

/-- The address of a digit's glyph: `zext_16(v[3:0]) * 5` (R192). -/
def glyphAddress (v : Byte) : Word := (lowNibble v).zeroExtend 16 * 5#16

/-- The operand of a shift: V[x], or V[y] under the other `SHIFT_SOURCE` (R169, D11). -/
def State.shiftOperand (src : ShiftSource) (s : State) (x y : Nibble) : Byte :=
  match src with
  | .vx => s.reg x
  | .vy => s.reg y

/-- The decimal digits of a byte, hundreds first (R193). -/
def decimalDigits (v : Byte) : List Byte :=
  [BitVec.ofNat 8 (v.toNat / 100), BitVec.ofNat 8 (v.toNat / 10 % 10), BitVec.ofNat 8 (v.toNat % 10)]

/-- The registers V[0]..V[x], in order (R194). -/
def State.regsThrough (s : State) (x : Nibble) : List Byte := s.V.toList.take (x.toNat + 1)

/-- Bytes loaded into V[k], V[k+1], ... (R195). -/
def State.setRegsFrom : Nat → List Byte → State → State
  | _, [], s => s
  | k, v :: vs, s => State.setRegsFrom (k + 1) vs (s.setReg (BitVec.ofNat 4 k) v)

end Sys2Proof.Machine
end

