-- ==== Sys2Proof/Machine/Flags.lean ====
section
/-! DEFINITION. The flag computations (42_alu.md) and the order in which a flag-writing instruction
writes VF and its result (R160). -/

namespace Sys2Proof.Machine

/-- `(cond ? 1 : 0)` as a byte (R5). -/
def flagByte (cond : Bool) : Byte := if cond then 1#8 else 0#8

/-- Carry out of an 8-bit sum, from the exact sum (R167). -/
def carryOut (a b : Byte) : Bool := decide (a.toNat + b.toNat > 255)

/-- No borrow: minuend at least subtrahend (R168, R170). -/
def noBorrow (a b : Byte) : Bool := decide (b.toNat ≤ a.toNat)

/-- The bit a right shift loses, bit 0 (R169, D12). -/
def shiftedOutRight (a : Byte) : Bool := a.getLsbD 0

/-- The bit a left shift loses, bit 7 (R171, D12). -/
def shiftedOutLeft (a : Byte) : Bool := a.getLsbD 7

/-- Stages 3 and 4 of R160: the flag first, then the result, so that for x = F the result survives
(D10). -/
def State.setFlagThenReg (s : State) (x : Nibble) (flag : Bool) (result : Byte) : State :=
  (s.setReg flagReg (flagByte flag)).setReg x result

end Sys2Proof.Machine
end

