-- ==== Sys2Proof/Machine/Alu.lean ====
section
/-! DEFINITION. Register and ALU instructions (42_alu.md R160 to R171). Every operand is read before
any write, and each instruction ends with `pc + 2`. -/

namespace Sys2Proof.Machine

/-- LD Vx, nn (R161). -/
def runLdImm (x : Nibble) (nn : Byte) (s : State) : Effect := quietly (s.setReg x nn).advance
def execLdImm (x : Nibble) (nn : Byte) (s : State) : Host.Outcome State Fault Refusal :=
  (runLdImm x nn s).outcome

/-- ADD Vx, nn: wraps mod 256 and writes no flag (R162). -/
def runAddImm (x : Nibble) (nn : Byte) (s : State) : Effect :=
  quietly (s.setReg x (s.reg x + nn)).advance
def execAddImm (x : Nibble) (nn : Byte) (s : State) : Host.Outcome State Fault Refusal :=
  (runAddImm x nn s).outcome

/-- LD Vx, Vy (R163). -/
def runLdReg (x y : Nibble) (s : State) : Effect := quietly (s.setReg x (s.reg y)).advance
def execLdReg (x y : Nibble) (s : State) : Host.Outcome State Fault Refusal := (runLdReg x y s).outcome

/-- OR Vx, Vy: VF unchanged (R164, D9). -/
def runOr (x y : Nibble) (s : State) : Effect := quietly (s.setReg x (s.reg x ||| s.reg y)).advance
def execOr (x y : Nibble) (s : State) : Host.Outcome State Fault Refusal := (runOr x y s).outcome

/-- AND Vx, Vy: VF unchanged (R165, D9). -/
def runAnd (x y : Nibble) (s : State) : Effect := quietly (s.setReg x (s.reg x &&& s.reg y)).advance
def execAnd (x y : Nibble) (s : State) : Host.Outcome State Fault Refusal := (runAnd x y s).outcome

/-- XOR Vx, Vy: VF unchanged (R166, D9). -/
def runXor (x y : Nibble) (s : State) : Effect := quietly (s.setReg x (s.reg x ^^^ s.reg y)).advance
def execXor (x y : Nibble) (s : State) : Host.Outcome State Fault Refusal := (runXor x y s).outcome

/-- ADD Vx, Vy: VF = carry out, no carry in (R167). -/
def runAddReg (x y : Nibble) (s : State) : Effect :=
  quietly (s.setFlagThenReg x (carryOut (s.reg x) (s.reg y)) (s.reg x + s.reg y)).advance
def execAddReg (x y : Nibble) (s : State) : Host.Outcome State Fault Refusal := (runAddReg x y s).outcome

/-- SUB Vx, Vy: VF = no borrow (R168). -/
def runSub (x y : Nibble) (s : State) : Effect :=
  quietly (s.setFlagThenReg x (noBorrow (s.reg x) (s.reg y)) (s.reg x - s.reg y)).advance
def execSub (x y : Nibble) (s : State) : Host.Outcome State Fault Refusal := (runSub x y s).outcome

/-- SUBN Vx, Vy: the reversed subtraction into V[x] (R170, D13). -/
def runSubn (x y : Nibble) (s : State) : Effect :=
  quietly (s.setFlagThenReg x (noBorrow (s.reg y) (s.reg x)) (s.reg y - s.reg x)).advance
def execSubn (x y : Nibble) (s : State) : Host.Outcome State Fault Refusal := (runSubn x y s).outcome

/-- SHR Vx, Vy under a shift source: one bit, logical, VF = old bit 0 (R169, D11, D12). -/
def runShr (src : ShiftSource) (x y : Nibble) (s : State) : Effect :=
  quietly (s.setFlagThenReg x (shiftedOutRight (s.shiftOperand src x y)) (s.shiftOperand src x y >>> 1)).advance
def execShr (x y : Nibble) (s : State) : Host.Outcome State Fault Refusal :=
  (runShr params.shiftSource x y s).outcome

/-- SHL Vx, Vy under a shift source: one bit, VF = old bit 7 (R171, D11, D12). -/
def runShl (src : ShiftSource) (x y : Nibble) (s : State) : Effect :=
  quietly (s.setFlagThenReg x (shiftedOutLeft (s.shiftOperand src x y)) (s.shiftOperand src x y <<< 1)).advance
def execShl (x y : Nibble) (s : State) : Host.Outcome State Fault Refusal :=
  (runShl params.shiftSource x y s).outcome

end Sys2Proof.Machine
end

