-- ==== Sys2Proof/Machine/Control.lean ====
section
/-! DEFINITION. SYS and unrecognized words (40_step_cycle.md R125, R126) and control transfer
(41_control_flow.md R140 to R147). `run<X>` is the complete effect of an instruction with its report,
`exec<X>` its next state. -/

namespace Sys2Proof.Machine

/-- SYS, ignored (R125). -/
def runSys (_nnn : Imm12) (s : State) : Effect := quietly s.advance
def execSys (nnn : Imm12) (s : State) : Host.Outcome State Fault Refusal := (runSys nnn s).outcome

/-- A word that is no instruction: a no-op that is reported (R126, R261). -/
def runUnrecognized (s : State) : Effect := absorb .unimplementedOpcode s
def execUnrecognized (s : State) : Host.Outcome State Fault Refusal := (runUnrecognized s).outcome

/-- JP nnn (R140). -/
def runJp (nnn : Imm12) (s : State) : Effect := quietly (s.jumpTo (zextImm nnn))
def execJp (nnn : Imm12) (s : State) : Host.Outcome State Fault Refusal := (runJp nnn s).outcome

/-- CALL nnn (R141); dropped when the stack is full (R262). -/
def runCall (nnn : Imm12) (s : State) : Effect :=
  if h : s.sp.val < 16 then quietly ((s.push (s.pc + 2#16) h).jumpTo (zextImm nnn))
  else absorb .stackOverflow s
def execCall (nnn : Imm12) (s : State) : Host.Outcome State Fault Refusal := (runCall nnn s).outcome

/-- RET (R142); dropped when the stack is empty (R263). -/
def runRet (s : State) : Effect :=
  if 0 < s.sp.val then quietly (s.pop.jumpTo s.top) else absorb .stackUnderflow s
def execRet (s : State) : Host.Outcome State Fault Refusal := (runRet s).outcome

/-- JP V0, nnn: a 16-bit sum, not masked (R143, D14). -/
def runJpV0 (nnn : Imm12) (s : State) : Effect :=
  quietly (s.jumpTo (zextImm nnn + zextByte (s.reg 0#4)))
def execJpV0 (nnn : Imm12) (s : State) : Host.Outcome State Fault Refusal := (runJpV0 nnn s).outcome

/-- SE Vx, nn (R144). -/
def runSeImm (x : Nibble) (nn : Byte) (s : State) : Effect := quietly (s.skipIf (s.reg x == nn))
def execSeImm (x : Nibble) (nn : Byte) (s : State) : Host.Outcome State Fault Refusal :=
  (runSeImm x nn s).outcome

/-- SNE Vx, nn (R145). -/
def runSneImm (x : Nibble) (nn : Byte) (s : State) : Effect := quietly (s.skipIf (s.reg x != nn))
def execSneImm (x : Nibble) (nn : Byte) (s : State) : Host.Outcome State Fault Refusal :=
  (runSneImm x nn s).outcome

/-- SE Vx, Vy (R146). -/
def runSeReg (x y : Nibble) (s : State) : Effect := quietly (s.skipIf (s.reg x == s.reg y))
def execSeReg (x y : Nibble) (s : State) : Host.Outcome State Fault Refusal := (runSeReg x y s).outcome

/-- SNE Vx, Vy (R147). -/
def runSneReg (x y : Nibble) (s : State) : Effect := quietly (s.skipIf (s.reg x != s.reg y))
def execSneReg (x y : Nibble) (s : State) : Host.Outcome State Fault Refusal := (runSneReg x y s).outcome

end Sys2Proof.Machine
end

