-- ==== Sys2Proof/Machine/Display.lean ====
section
/-! DEFINITION. Display instructions (44_display.md R210, R211). -/

namespace Sys2Proof.Machine

/-- CLS (R210). -/
def runCls (s : State) : Effect := ⟨{ s with fb := Framebuffer.blank, draw := true }.advance, ⟨true, .none⟩⟩
def execCls (s : State) : Host.Outcome State Fault Refusal := (runCls s).outcome

/-- The sprite bytes of a DRW and whether they were cut at the end of memory (R66, R211). -/
def spriteBytes (n : Nibble) (s : State) : List Byte × Bool := loadBytes s.mem s.I.toNat n.toNat

/-- The framebuffer and collision after the sprite rows in range are drawn (R211). -/
def spriteCanvas (x y n : Nibble) (s : State) : Canvas :=
  drawRows (s.reg x) (s.reg y) 0 (spriteBytes n s).1 (s.fb, false)

/-- DRW Vx, Vy, n (R211): V[x], V[y] and I are read first, VF reports a collision of the rows drawn,
the draw flag is set in every case. -/
def runDrw (x y n : Nibble) (s : State) : Effect :=
  ⟨({ s with fb := (spriteCanvas x y n s).1, draw := true }.setReg flagReg
      (flagByte (spriteCanvas x y n s).2)).advance,
    ⟨true, boundsAnomaly (spriteBytes n s).2⟩⟩
def execDrw (x y n : Nibble) (s : State) : Host.Outcome State Fault Refusal := (runDrw x y n s).outcome

end Sys2Proof.Machine
end

