-- ==== Sys2Proof/Machine/Index.lean ====
section
/-! DEFINITION. Index register and memory instructions (43_index_memory.md R190 to R195). The k-th
byte of a store or load is at the exact address `I + k`; `I` is left unchanged (R196, R24). -/

namespace Sys2Proof.Machine

/-- LD I, nnn (R190). -/
def runLdI (nnn : Imm12) (s : State) : Effect := quietly { s with I := zextImm nnn }.advance
def execLdI (nnn : Imm12) (s : State) : Host.Outcome State Fault Refusal := (runLdI nnn s).outcome

/-- ADD I, Vx: wraps mod 65536, VF unchanged (R191, D23). -/
def runAddI (x : Nibble) (s : State) : Effect := quietly { s with I := s.I + zextByte (s.reg x) }.advance
def execAddI (x : Nibble) (s : State) : Host.Outcome State Fault Refusal := (runAddI x s).outcome

/-- LD F, Vx (R192). -/
def runLdF (x : Nibble) (s : State) : Effect := quietly { s with I := glyphAddress (s.reg x) }.advance
def execLdF (x : Nibble) (s : State) : Host.Outcome State Fault Refusal := (runLdF x s).outcome

/-- The shared store of Fx33 and Fx55: bytes to `I`, `I + 1`, ... (R66, R196). -/
def runStore (vs : List Byte) (s : State) : Effect :=
  ⟨{ s with mem := (storeBytes s.mem s.I.toNat vs).1 }.advance,
    ⟨false, boundsAnomaly (storeBytes s.mem s.I.toNat vs).2⟩⟩

/-- LD B, Vx: hundreds, tens, units (R193). -/
def runLdB (x : Nibble) (s : State) : Effect := runStore (decimalDigits (s.reg x)) s
def execLdB (x : Nibble) (s : State) : Host.Outcome State Fault Refusal := (runLdB x s).outcome

/-- LD [I], Vx: V[0]..V[x] (R194). -/
def runLdIVx (x : Nibble) (s : State) : Effect := runStore (s.regsThrough x) s
def execLdIVx (x : Nibble) (s : State) : Host.Outcome State Fault Refusal := (runLdIVx x s).outcome

/-- LD Vx, [I]: into V[0]..V[x], as far as the bytes are in range (R195). -/
def runLdVxI (x : Nibble) (s : State) : Effect :=
  ⟨(State.setRegsFrom 0 (loadBytes s.mem s.I.toNat (x.toNat + 1)).1 s).advance,
    ⟨false, boundsAnomaly (loadBytes s.mem s.I.toNat (x.toNat + 1)).2⟩⟩
def execLdVxI (x : Nibble) (s : State) : Host.Outcome State Fault Refusal := (runLdVxI x s).outcome

end Sys2Proof.Machine
end

