-- ==== Sys2Proof/Machine/Input.lean ====
section
/-! DEFINITION. Key, timer and random instructions (45_keys_timers_rng.md R230 to R235, R238). -/

namespace Sys2Proof.Machine

/-- SKP Vx: the key of the low nibble (R230, D21). -/
def runSkp (x : Nibble) (s : State) : Effect := quietly (s.skipIf (s.pressed (lowNibble (s.reg x))))
def execSkp (x : Nibble) (s : State) : Host.Outcome State Fault Refusal := (runSkp x s).outcome

/-- SKNP Vx (R231, D21). -/
def runSknp (x : Nibble) (s : State) : Effect := quietly (s.skipIf (!s.pressed (lowNibble (s.reg x))))
def execSknp (x : Nibble) (s : State) : Host.Outcome State Fault Refusal := (runSknp x s).outcome

/-- LD Vx, K under a choice among pressed keys: with none pressed the step changes nothing, and `pc`
keeps the address of this instruction (R232, D22). -/
def runLdVxK (choice : Vector Bool 16 → Nibble) (x : Nibble) (s : State) : Effect :=
  if s.anyPressed then quietly (s.setReg x ((choice s.key).zeroExtend 8)).advance else quietly s
def execLdVxK (x : Nibble) (s : State) : Host.Outcome State Fault Refusal :=
  (runLdVxK params.keyWaitChoice x s).outcome

/-- LD Vx, DT (R233). -/
def runLdVxDt (x : Nibble) (s : State) : Effect := quietly (s.setReg x s.DT).advance
def execLdVxDt (x : Nibble) (s : State) : Host.Outcome State Fault Refusal := (runLdVxDt x s).outcome

/-- LD DT, Vx (R234). -/
def runLdDtVx (x : Nibble) (s : State) : Effect := quietly { s with DT := s.reg x }.advance
def execLdDtVx (x : Nibble) (s : State) : Host.Outcome State Fault Refusal := (runLdDtVx x s).outcome

/-- LD ST, Vx (R235). -/
def runLdStVx (x : Nibble) (s : State) : Effect := quietly { s with ST := s.reg x }.advance
def execLdStVx (x : Nibble) (s : State) : Host.Outcome State Fault Refusal := (runLdStVx x s).outcome

/-- RND Vx, nn under a random source: the seed advances once, whatever nn is, and the byte is taken
from the new seed (R238, R239). -/
def runRnd (rngNext : Seed → Seed) (x : Nibble) (nn : Byte) (s : State) : Effect :=
  quietly ({ s with seed := rngNext s.seed }.setReg x (randomByte (rngNext s.seed) &&& nn)).advance
def execRnd (x : Nibble) (nn : Byte) (s : State) : Host.Outcome State Fault Refusal :=
  (runRnd params.rngNext x nn s).outcome

end Sys2Proof.Machine
end

