-- ==== Sys2Proof/Machine/Step.lean ====
section
/-! DEFINITION. One step: fetch, decode, execute (40_step_cycle.md R120), and placing an instruction
word where the next step fetches it. -/

namespace Sys2Proof.Machine

/-- `step()` (R120). Every instruction writes `pc` itself, so nothing is added around `exec`. A state
exists only after `reset`, so `NotReset` is raised by `Block.apply`, not here (log 5). -/
def step (s : State) : Host.Outcome State Fault Refusal :=
  match s.fetch with
  | none => .fault .fetchOutOfBounds
  | some w =>
    match decodeWord w with
    | some i => exec i s
    | none => execUnrecognized s

/-- The state with an instruction word at `pc`, high byte first. A `pc` no instruction can be fetched
from is set to the program origin first (log 33). -/
def State.withFetchWord (s : State) (nbits w : Nat) : State :=
  let t := if s.pc.toNat ≤ 4094 then s else s.jumpTo (BitVec.ofNat 16 Config.programOrigin)
  { t with mem := t.mem.writeAll t.pc.toNat (bytesOfWord (tableWord nbits w)) }

end Sys2Proof.Machine
end

