-- ==== Sys2Proof/Machine/Report.lean ====
section
/-! DEFINITION. Every instruction and the step under any parameters (00_scope.md R4), with the outputs
`draw_occurred` and `anomaly` (40_step_cycle.md R124, 60_exceptions.md R260), which are functions of the
step and not state. `f` is `fUnder params`; `exec` and `step` are `execUnder params` and `stepUnder params`
(Laws/Effect.lean). -/

namespace Sys2Proof.Machine

/-- The complete effect of an instruction under a configuration: its next state and its report. -/
def effectUnder (cfg : Config) (i : Instr) (s : State) : Effect :=
  match i with
  | .cls => runCls s
  | .ret => runRet s
  | .sys nnn => runSys nnn s
  | .jp nnn => runJp nnn s
  | .call nnn => runCall nnn s
  | .seImm x nn => runSeImm x nn s
  | .sneImm x nn => runSneImm x nn s
  | .seReg x y => runSeReg x y s
  | .ldImm x nn => runLdImm x nn s
  | .addImm x nn => runAddImm x nn s
  | .ldReg x y => runLdReg x y s
  | .orReg x y => runOr x y s
  | .andReg x y => runAnd x y s
  | .xorReg x y => runXor x y s
  | .addReg x y => runAddReg x y s
  | .sub x y => runSub x y s
  | .shr x y => runShr cfg.shiftSource x y s
  | .subn x y => runSubn x y s
  | .shl x y => runShl cfg.shiftSource x y s
  | .sneReg x y => runSneReg x y s
  | .ldI nnn => runLdI nnn s
  | .jpV0 nnn => runJpV0 nnn s
  | .rnd x nn => runRnd cfg.rngNext x nn s
  | .drw x y n => runDrw x y n s
  | .skp x => runSkp x s
  | .sknp x => runSknp x s
  | .ldVxDt x => runLdVxDt x s
  | .ldVxK x => runLdVxK cfg.keyWaitChoice x s
  | .ldDtVx x => runLdDtVx x s
  | .ldStVx x => runLdStVx x s
  | .addI x => runAddI x s
  | .ldF x => runLdF x s
  | .ldB x => runLdB x s
  | .ldIVx x => runLdIVx x s
  | .ldVxI x => runLdVxI x s

/-- An instruction under a configuration. -/
def execUnder (cfg : Config) (i : Instr) (s : State) : Host.Outcome State Fault Refusal :=
  (effectUnder cfg i s).outcome

/-- The outputs of executing an instruction under a configuration (R124). -/
def reportUnder (cfg : Config) (i : Instr) (s : State) : Report := (effectUnder cfg i s).report

/-- The effect of the fetched word under a configuration; none when the fetch is out of range (R120). -/
def State.cycle (cfg : Config) (s : State) : Option Effect :=
  s.fetch.map fun w =>
    match decodeWord w with
    | some i => effectUnder cfg i s
    | none => runUnrecognized s

/-- `step()` under a configuration (R120). -/
def stepUnder (cfg : Config) (s : State) : Host.Outcome State Fault Refusal :=
  match s.cycle cfg with
  | some e => e.outcome
  | none => .fault .fetchOutOfBounds

/-- The outputs of a step under a configuration, none when the step faults (R120, R7). -/
def stepReportUnder (cfg : Config) (s : State) : Option Report := (s.cycle cfg).map (·.report)

/-! ### Under the default parameters -/

/-- The complete effect of an instruction: its next state, which is `exec`'s, and its report. -/
def effect (i : Instr) (s : State) : Effect := effectUnder params i s

/-- The outputs of executing an instruction (R124). -/
def report (i : Instr) (s : State) : Report := (effect i s).report

/-- The outputs of `step`, none when the step faults (R120, R7). -/
def stepReport (s : State) : Option Report := stepReportUnder params s

end Sys2Proof.Machine
end

