-- ==== Sys2Proof/Machine/Block.lean ====
section
/-! DEFINITION. The interface of the block: its six operations as atomic transitions in any order
(10_state.md R35, R36) under any parameters (00_scope.md R4), the output `tone` (R237), and the machine
before its first reset (R291). -/

namespace Sys2Proof.Machine

/-- One timer's countdown, stopping at zero (R236). -/
def countDown (t : Byte) : Byte := if t = 0#8 then 0#8 else t - 1#8

/-- `tick()` (R236). -/
def State.tick (s : State) : State := { s with DT := countDown s.DT, ST := countDown s.ST }

/-- The `tone` output (R237). -/
def State.tone (s : State) : Bool := decide (0 < s.ST.toNat)

/-- `set_key(k, b)` for a legal index (R240). -/
def State.setKey (s : State) (k : Nat) (b : Bool) (h : k < 16) : State := { s with key := s.key.set k b h }

/-- `clear_draw()` (R213). -/
def State.clearDraw (s : State) : State := { s with draw := false }

/-- The result of `load` (R267, R292). -/
inductive LoadResult where
  | ok
  | romTooLarge
  deriving DecidableEq, Repr

/-- The numbers this spec gives the results of `load` (R267). -/
def LoadResult.code : LoadResult → Nat
  | .ok => 0
  | .romTooLarge => 1

/-- `load(bytes)` (R292): a raw copy to the program origin, or a rejection that changes nothing. -/
def State.load (s : State) (bytes : List Byte) : State × LoadResult :=
  if bytes.length ≤ Config.maxRom then
    ({ s with mem := s.mem.writeAll Config.programOrigin bytes }, .ok)
  else (s, .romTooLarge)

/-- The six operations with their inputs (R35). -/
inductive Operation where
  | reset (seedIn : Seed)
  | load (bytes : List Byte)
  | step
  | tick
  | setKey (k : Nat) (b : Bool)
  | clearDraw
  deriving DecidableEq, Repr

/-- What an operation returns to its caller (R35). -/
inductive Reply where
  | nothing
  | loaded (r : LoadResult)
  | stepped (r : Option Report)
  deriving DecidableEq, Repr

/-- The block as its environment finds it. -/
inductive Block where
  /-- Before the first reset: every state element is unspecified (R291). -/
  | unreset
  | live (s : State)
  /-- A faulted machine: no operation but `reset` has a meaning (R7). -/
  | faulted (f : Fault)
  /-- After an input that has no meaning (R240, D32). -/
  | refused (r : Refusal)
  deriving DecidableEq, Repr

/-- `reset(seed_in)` under the `FONT` of a configuration (R290). -/
def State.resetUnder (cfg : Config) (seedIn : Seed) : State :=
  { State.resetWith seedIn with mem := Memory.writeAll [] 0 cfg.font.toList }

/-- An operation on a live state, under a configuration. -/
def State.operateUnder (cfg : Config) (s : State) : Operation → Host.Outcome State Fault Refusal
  | .reset seedIn => .next (State.resetUnder cfg seedIn)
  | .load bytes => .next (s.load bytes).1
  | .step => stepUnder cfg s
  | .tick => .next s.tick
  | .setKey k b => if h : k < 16 then .next (s.setKey k b h) else .refused (.illegalKeyIndex k)
  | .clearDraw => .next s.clearDraw

/-- One operation on a block that has no state: `reset` gives it one (R290), every other stops (R7, R291). -/
def applyStopped (cfg : Config) (op : Operation) (stop : Host.Outcome State Fault Refusal) :
    Host.Outcome State Fault Refusal :=
  match op with
  | .reset seedIn => .next (State.resetUnder cfg seedIn)
  | .load _ | .step | .tick | .setKey _ _ | .clearDraw => stop

/-- One operation on the block (R35), under a configuration. -/
def Block.applyUnder (cfg : Config) (op : Operation) : Block → Host.Outcome State Fault Refusal
  | .live s => s.operateUnder cfg op
  | .unreset => applyStopped cfg op (.fault .notReset)
  | .faulted f => applyStopped cfg op (.fault f)
  | .refused r => applyStopped cfg op (.refused r)

/-- What an operation on a live state returns besides the new state (R35, R124, R292). -/
def State.replyUnder (cfg : Config) (s : State) : Operation → Reply
  | .load bytes => .loaded (s.load bytes).2
  | .step => .stepped (stepReportUnder cfg s)
  | .reset _ | .tick | .setKey _ _ | .clearDraw => .nothing

/-- The block an outcome leaves. -/
def Block.ofOutcome : Host.Outcome State Fault Refusal → Block
  | .next s => .live s
  | .fault f => .faulted f
  | .refused r => .refused r

/-- Any sequence of operations, each on the result of the one before (R36), under a configuration. -/
def Block.runUnder (cfg : Config) : List Operation → Block → Block
  | [], b => b
  | op :: ops, b => Block.runUnder cfg ops (Block.ofOutcome (Block.applyUnder cfg op b))

/-! ### Under the default parameters -/

/-- An operation on a live state. -/
abbrev State.operate : State → Operation → Host.Outcome State Fault Refusal := State.operateUnder params

/-- One operation on the block (R35). -/
abbrev Block.apply : Operation → Block → Host.Outcome State Fault Refusal := Block.applyUnder params

/-- What an operation on a live state returns besides the new state. -/
abbrev State.reply : State → Operation → Reply := State.replyUnder params

/-- Any sequence of operations, each on the result of the one before (R36). -/
abbrev Block.run : List Operation → Block → Block := Block.runUnder params

end Sys2Proof.Machine
end

