-- ==== Sys2Proof/Safety.lean ====
section
/-! DEFINITION. The terms claims use: what stays unchanged, the machine's invariant, runs of
instructions, what a safe step is, and the program-counter classes of 40_step_cycle.md R122. -/

namespace Sys2Proof.Machine

/-- Everything but `pc`, the registers in `regs` and the bytes in `addrs` is as before. -/
def UnchangedBut (regs : Nibble → Prop) (addrs : Nat → Prop) (s t : State) : Prop :=
  (∀ r, ¬ regs r → t.reg r = s.reg r) ∧ (∀ a, ¬ addrs a → t.mem.read a = s.mem.read a) ∧
  t.I = s.I ∧ t.stack = s.stack ∧ t.sp = s.sp ∧ t.DT = s.DT ∧ t.ST = s.ST ∧
  t.fb = s.fb ∧ t.draw = s.draw ∧ t.key = s.key ∧ t.seed = s.seed

/-- No register (or no byte of memory) is written. -/
def nowhere {α : Type} : α → Prop := fun _ => False

/-- The invariant of every operation: memory in canonical form; `pc` at most 0x10FE, so that no sum
on it wraps (R25); every live stack slot at most 4096 (R142). -/
abbrev State.Inv (s : State) : Prop :=
  s.mem.wf ∧ s.pc.toNat ≤ 0x10FE ∧ ∀ k : Fin 16, k.val < s.sp.val → (s.stack[k.val]).toNat ≤ 4096

/-- A block whose state, if it has one, meets the invariant. -/
def Block.Inv : Block → Prop
  | .live s => s.Inv
  | .unreset | .faulted _ | .refused _ => True

/-- Two states a program cannot tell apart: they may differ in the draw flag, the sound timer and the
dead slots of the stack, which no instruction reads (R213, R28, R26). -/
def SameToProgram (s t : State) : Prop :=
  t.mem = s.mem ∧ t.V = s.V ∧ t.I = s.I ∧ t.pc = s.pc ∧ t.sp = s.sp ∧
  (∀ k : Fin 16, k.val < s.sp.val → t.stack[k.val] = s.stack[k.val]) ∧
  t.DT = s.DT ∧ t.fb = s.fb ∧ t.key = s.key ∧ t.seed = s.seed

/-- A list of instructions executed one after another, wherever their words stand. -/
def execAll : List Instr → State → Host.Outcome State Fault Refusal
  | [], s => .next s
  | i :: is, s =>
    match exec i s with
    | .next t => execAll is t
    | .fault f => .fault f
    | .refused r => .refused r

/-- A step that has a next state and no anomaly (R260). -/
def SafeStep (s : State) : Prop := ∃ r, stepReport s = some r ∧ r.anomaly = .none

/-- A run of `n` safe steps. -/
def SafeFor : Nat → State → Prop
  | 0, _ => True
  | n + 1, s => SafeStep s ∧ ∃ t, step s = .next t ∧ SafeFor n t

/-- The `pc` an instruction leaves, read off the table of R122 and the skip conditions of R144 to
R147, R230 and R231. -/
def tablePc (i : Instr) (s : State) : Word :=
  match i with
  | .jp nnn => BitVec.ofNat 16 nnn.toNat
  | .call nnn => if s.sp.val < 16 then BitVec.ofNat 16 nnn.toNat else s.pc + 2#16
  | .jpV0 nnn => BitVec.ofNat 16 (nnn.toNat + (s.reg 0#4).toNat)
  | .ret => if 0 < s.sp.val then s.stack[s.sp.val - 1]'(by omega) else s.pc + 2#16
  | .seImm x nn => if s.reg x = nn then s.pc + 4#16 else s.pc + 2#16
  | .sneImm x nn => if s.reg x ≠ nn then s.pc + 4#16 else s.pc + 2#16
  | .seReg x y => if s.reg x = s.reg y then s.pc + 4#16 else s.pc + 2#16
  | .sneReg x y => if s.reg x ≠ s.reg y then s.pc + 4#16 else s.pc + 2#16
  | .skp x => if s.pressed (lowNibble (s.reg x)) then s.pc + 4#16 else s.pc + 2#16
  | .sknp x => if s.pressed (lowNibble (s.reg x)) then s.pc + 2#16 else s.pc + 4#16
  | .ldVxK _ => if ∃ k, s.pressed k = true then s.pc + 2#16 else s.pc
  | .cls | .sys _ | .ldImm _ _ | .addImm _ _ | .ldReg _ _ | .orReg _ _ | .andReg _ _ | .xorReg _ _
  | .addReg _ _ | .sub _ _ | .shr _ _ | .subn _ _ | .shl _ _ | .ldI _ | .rnd _ _ | .drw _ _ _
  | .ldVxDt _ | .ldDtVx _ | .ldStVx _ | .addI _ | .ldF _ | .ldB _ | .ldIVx _ | .ldVxI _ => s.pc + 2#16

/-- The anomaly an instruction signals, read off the table of R268. -/
def tableAnomaly (i : Instr) (s : State) : Anomaly :=
  match i with
  | .call _ => if s.sp.val = 16 then .stackOverflow else .none
  | .ret => if s.sp.val = 0 then .stackUnderflow else .none
  | .ldB _ => if s.I.toNat + 2 > 4095 then .memoryBoundsViolation else .none
  | .ldIVx x | .ldVxI x => if s.I.toNat + x.toNat > 4095 then .memoryBoundsViolation else .none
  | .drw _ _ n => if 1 ≤ n.toNat ∧ s.I.toNat + n.toNat > 4096 then .memoryBoundsViolation else .none
  | .cls | .sys _ | .jp _ | .jpV0 _ | .seImm _ _ | .sneImm _ _ | .seReg _ _ | .sneReg _ _ | .skp _
  | .sknp _ | .ldVxK _ | .ldImm _ _ | .addImm _ _ | .ldReg _ _ | .orReg _ _ | .andReg _ _
  | .xorReg _ _ | .addReg _ _ | .sub _ _ | .shr _ _ | .subn _ _ | .shl _ _ | .ldI _ | .rnd _ _
  | .ldVxDt _ | .ldDtVx _ | .ldStVx _ | .addI _ | .ldF _ => .none

/-- Whether a sprite drawn at column `px`, row `py` with bytes from address `base` sets the pixel of
cell `fb[y][x]`: row `k` of at most `n` rows, in range of memory, column `c` of 8, bit `7 - c` (R211). -/
def spritePixel (m : Memory) (base : Nat) (px py : Byte) (n : Nat) (y : Fin 32) (x : Fin 64) : Prop :=
  ∃ k < n, base + k ≤ 4095 ∧ ∃ c < 8, (m.read (base + k)).getLsbD (7 - c) = true ∧
    y.val = (py.toNat + k) % 32 ∧ x.val = (px.toNat + c) % 64

end Sys2Proof.Machine
end

