-- ==== Sys2Proof/Certificates/Slice0/Obligations.lean ====
section
/-! DEFINITION. The statements for the provers. Each docstring names the rule or the section of spec/
it formalises, and the decision or log entry it rests on where it rests on one. -/

open Sys2Proof Sys2Proof.Machine

/-! ### Encoding -/

/-- All 18 words of 95_test_vectors.md section 2.1 and six written out from the patterns of R95: they decode
as listed. The rejections rest on the spec's decision D8 (log 15), 812E on its sub-opcode positions G2 (log 31). -/
def Obligations.SpecWordsDecodeAsListed : Prop :=
  decodeWord 0x0000#16 = some (.sys 0x000#12) ∧ decodeWord 0x00E0#16 = some .cls ∧
  decodeWord 0x00E1#16 = some (.sys 0x0E1#12) ∧ decodeWord 0x00EE#16 = some .ret ∧
  decodeWord 0x0FFF#16 = some (.sys 0xFFF#12) ∧ decodeWord 0x812F#16 = none ∧
  decodeWord 0xF100#16 = none ∧ decodeWord 0xF175#16 = none ∧
  decodeWord 0x1ABC#16 = some (.jp 0xABC#12) ∧ decodeWord 0x332A#16 = some (.seImm 3#4 0x2A#8) ∧
  decodeWord 0x5120#16 = some (.seReg 1#4 2#4) ∧ decodeWord 0x5121#16 = none ∧
  decodeWord 0x8128#16 = none ∧ decodeWord 0x812E#16 = some (.shl 1#4 2#4) ∧
  decodeWord 0x9AB0#16 = some (.sneReg 0xA#4 0xB#4) ∧ decodeWord 0x9AB1#16 = none ∧
  decodeWord 0xA300#16 = some (.ldI 0x300#12) ∧ decodeWord 0xC10F#16 = some (.rnd 1#4 0x0F#8) ∧
  decodeWord 0xD012#16 = some (.drw 0#4 1#4 2#4) ∧ decodeWord 0xE19E#16 = some (.skp 1#4) ∧
  decodeWord 0xE19F#16 = none ∧ decodeWord 0xF10A#16 = some (.ldVxK 1#4) ∧
  decodeWord 0xF265#16 = some (.ldVxI 2#4) ∧ decodeWord 0xFFFF#16 = none

/-- R93, R95: decoding an encoded well-formed instruction gives it back, as a word, as the first two
of any bytes, and as the host's table word; no field is dropped. -/
def Obligations.DecodeOfEncodeIsTheInstruction : Prop :=
  ∀ (i : Instr) (rest : List Byte), i.wf = true →
    decodeWord (encode i) = some i ∧ decode (bytesOfWord (encode i) ++ rest) = .instr i rest ∧
    decodeTableWord 16 (encode i).toNat = some i

/-- R94: each recognised word has one meaning; the decoder's instruction is well formed and encodes to
the word. -/
def Obligations.EncodeOfDecodeIsTheWord : Prop :=
  ∀ (w : Word) (i : Instr), decodeWord w = some i → i.wf = true ∧ encode i = w

/-- The procedure of R94 and the mask and match table of R95, rows in table order, agree on every word. -/
def Obligations.ProcedureAgreesWithOpcodeTable : Prop :=
  ∀ w : Word, decodeWord w = decodeByTable w

/-- R96: exactly these words are UNRECOGNIZED. Rests on the spec's decision D8 (log 15). -/
def Obligations.UnrecognizedWordsAreExactlyThese : Prop :=
  ∀ w : Word, decodeWord w = none ↔
    (fieldOp w = 0x5#4 ∧ fieldN w ≠ 0#4) ∨ (fieldOp w = 0x9#4 ∧ fieldN w ≠ 0#4) ∨
    (fieldOp w = 0x8#4 ∧ fieldN w ∈ [0x8#4, 0x9#4, 0xA#4, 0xB#4, 0xC#4, 0xD#4, 0xF#4]) ∨
    (fieldOp w = 0xE#4 ∧ fieldNN w ∉ [0x9E#8, 0xA1#8]) ∨
    (fieldOp w = 0xF#4 ∧ fieldNN w ∉
      [0x07#8, 0x0A#8, 0x15#8, 0x18#8, 0x1E#8, 0x29#8, 0x33#8, 0x55#8, 0x65#8])

/-! ### The step -/

/-- R121: the fetched word is `hi * 256 + lo` of the bytes at `pc` and `pc + 1`, whatever the parity of
`pc`, and there is one only for `pc` up to 4094; the instruction it decodes to is what the step executes
and reports, from the same state, with nothing added around it. That an odd `pc` is fetched from and none
above 4094 rests on the spec's decisions D6 and D5 (logs 14, 13). -/
def Obligations.StepRunsTheFetchedInstruction : Prop :=
  ∀ s : State,
    (s.pc.toNat ≤ 4094 → s.fetch = some (BitVec.ofNat 16
      ((s.mem.read s.pc.toNat).toNat * 256 + (s.mem.read (s.pc.toNat + 1)).toNat))) ∧
    (4094 < s.pc.toNat → s.fetch = none) ∧
    ∀ i : Instr, s.pc.toNat ≤ 4094 → decodeWord (BitVec.ofNat 16
      ((s.mem.read s.pc.toNat).toNat * 256 + (s.mem.read (s.pc.toNat + 1)).toNat)) = some i →
      step s = exec i s ∧ stepReport s = some (report i s)

/-- R126: a word that is no instruction changes nothing but `pc`, by 2, and is reported. -/
def Obligations.UnrecognizedWordIsAReportedNoOp : Prop :=
  ∀ s : State, s.pc.toNat ≤ 4094 →
    decodeWord (BitVec.ofNat 16
      ((s.mem.read s.pc.toNat).toNat * 256 + (s.mem.read (s.pc.toNat + 1)).toNat)) = none →
    step s = .next { s with pc := s.pc + 2#16 } ∧ stepReport s = some ⟨false, .unimplementedOpcode⟩

/-- R67, R7: a step faults exactly when `pc > 4094`, always with FetchOutOfBounds and no report; every
other step has a next state; no step is refused. Rests on the spec's decision D5 (log 13). -/
def Obligations.StepFaultsExactlyOutsideMemory : Prop :=
  ∀ s : State,
    (4094 < s.pc.toNat → step s = .fault .fetchOutOfBounds ∧ stepReport s = none) ∧
    (s.pc.toNat ≤ 4094 → ∃ t r, step s = .next t ∧ stepReport s = some r) ∧
    ∀ r, step s ≠ .refused r

/-- A word placed by `withFetchWord` is the one the next step runs, and placing it changes two bytes of
memory and nothing else. The model's choice (log 33). -/
def Obligations.PlacedWordRunsNext : Prop :=
  ∀ (s : State) (w : Word) (i : Instr), s.mem.wf → s.pc.toNat ≤ 4094 → decodeWord w = some i →
    step (s.withFetchWord 16 w.toNat) = exec i (s.withFetchWord 16 w.toNat) ∧
    UnchangedBut nowhere (fun a => a = s.pc.toNat ∨ a = s.pc.toNat + 1) s (s.withFetchWord 16 w.toNat) ∧
    (s.withFetchWord 16 w.toNat).pc = s.pc

/-- R122: the `pc` every instruction leaves, class by class, and that every instruction completes in
every state; an unrecognized word is of the sequential class. Rests on D14 for JP V0 and on D21 for the
key a skip tests (logs 20, 28). -/
def Obligations.PcFollowsTheTable : Prop :=
  (∀ (i : Instr) (s : State), ∃ t, exec i s = .next t ∧ t.pc = tablePc i s) ∧
  ∀ s : State, ∃ t, execUnrecognized s = .next t ∧ t.pc = s.pc + 2#16

/-! ### Control transfer -/

/-- R140: `pc <- nnn` and nothing else. -/
def Obligations.JumpSetsPc : Prop :=
  ∀ (nnn : Imm12) (s : State),
    decodeWord (wordNNN 0x1#4 nnn) = some (.jp nnn) ∧
    exec (.jp nnn) s = .next { s with pc := BitVec.ofNat 16 nnn.toNat } ∧
    report (.jp nnn) s = ⟨false, .none⟩

/-- R143: `pc <- nnn + V[0]`, a 16-bit sum and nothing else. Rests on the spec's decision D14 (log 20). -/
def Obligations.JumpWithOffsetAddsV0 : Prop :=
  ∀ (nnn : Imm12) (s : State),
    exec (.jpV0 nnn) s = .next { s with pc := BitVec.ofNat 16 (nnn.toNat + (s.reg 0#4).toNat) } ∧
    nnn.toNat + (s.reg 0#4).toNat ≤ 0x10FE ∧ report (.jpV0 nnn) s = ⟨false, .none⟩

/-- R141, success: push `pc + 2` at `stack[sp]`, add 1 to `sp`, jump. Rests on D15 (log 21). -/
def Obligations.CallPushesTheReturnAddress : Prop :=
  ∀ (nnn : Imm12) (s : State) (k : Fin 16), s.sp = k.castSucc →
    exec (.call nnn) s = .next { s with
      stack := s.stack.set k.val (s.pc + 2#16) k.isLt, sp := k.succ, pc := BitVec.ofNat 16 nnn.toNat } ∧
    report (.call nnn) s = ⟨false, .none⟩

/-- R262: CALL with a full stack is dropped with `pc + 2`, and nothing else raises StackOverflow. -/
def Obligations.CallOnFullStackIsDropped : Prop :=
  (∀ (nnn : Imm12) (s : State), s.sp.val = 16 →
    exec (.call nnn) s = .next { s with pc := s.pc + 2#16 } ∧
    report (.call nnn) s = ⟨false, .stackOverflow⟩) ∧
  ∀ (i : Instr) (s : State), (report i s).anomaly = .stackOverflow →
    ∃ nnn, i = .call nnn ∧ s.sp.val = 16

/-- R142, success: subtract 1 from `sp` and jump to `stack[sp]`; the slot keeps its value. Rests on D15
(log 21). -/
def Obligations.RetPopsTheReturnAddress : Prop :=
  ∀ (s : State) (k : Fin 16), s.sp = k.succ →
    exec .ret s = .next { s with sp := k.castSucc, pc := s.stack[k.val] } ∧
    report .ret s = ⟨false, .none⟩

/-- R263: RET with an empty stack is dropped with `pc + 2`, and nothing else raises StackUnderflow. -/
def Obligations.RetOnEmptyStackIsDropped : Prop :=
  (∀ s : State, s.sp.val = 0 →
    exec .ret s = .next { s with pc := s.pc + 2#16 } ∧ report .ret s = ⟨false, .stackUnderflow⟩) ∧
  ∀ (i : Instr) (s : State), (report i s).anomaly = .stackUnderflow → i = .ret ∧ s.sp.val = 0

/-- 95_test_vectors.md S6: any nesting of calls that fits the stack, followed by as many returns, ends
at the address after the first call with the stack as it was. -/
def Obligations.NestedCallsReturn : Prop :=
  ∀ (targets : List Imm12) (s : State), s.sp.val + targets.length ≤ 16 →
    ∃ t, execAll (targets.map .call ++ List.replicate targets.length .ret) s = .next t ∧
      t.sp = s.sp ∧ (t.pc = if targets.isEmpty then s.pc else s.pc + 2#16) ∧
      (∀ k : Fin 16, k.val < s.sp.val → t.stack[k.val] = s.stack[k.val]) ∧
      UnchangedBut nowhere nowhere s { t with stack := s.stack }

/-- R144, R145: the skips on an immediate change nothing but `pc`. -/
def Obligations.SkipsOnImmediate : Prop :=
  ∀ (x : Nibble) (nn : Byte) (s : State),
    decodeWord (wordXNN 0x3#4 x nn) = some (.seImm x nn) ∧
    decodeWord (wordXNN 0x4#4 x nn) = some (.sneImm x nn) ∧
    exec (.seImm x nn) s = .next { s with pc := if s.reg x = nn then s.pc + 4#16 else s.pc + 2#16 } ∧
    exec (.sneImm x nn) s = .next { s with pc := if s.reg x ≠ nn then s.pc + 4#16 else s.pc + 2#16 } ∧
    report (.seImm x nn) s = ⟨false, .none⟩ ∧ report (.sneImm x nn) s = ⟨false, .none⟩

/-- R146, R147: the skips on two registers change nothing but `pc`; a word of theirs with another low
nibble is UNRECOGNIZED (D8, log 15). -/
def Obligations.SkipsOnRegisters : Prop :=
  ∀ (x y : Nibble) (s : State),
    decodeWord (wordXYN 0x5#4 x y 0x0#4) = some (.seReg x y) ∧
    decodeWord (wordXYN 0x9#4 x y 0x0#4) = some (.sneReg x y) ∧
    (∀ n : Nibble, n ≠ 0#4 → decodeWord (wordXYN 0x5#4 x y n) = none ∧ decodeWord (wordXYN 0x9#4 x y n) = none) ∧
    exec (.seReg x y) s = .next { s with pc := if s.reg x = s.reg y then s.pc + 4#16 else s.pc + 2#16 } ∧
    exec (.sneReg x y) s = .next { s with pc := if s.reg x ≠ s.reg y then s.pc + 4#16 else s.pc + 2#16 } ∧
    report (.seReg x y) s = ⟨false, .none⟩ ∧ report (.sneReg x y) s = ⟨false, .none⟩

/-- R125: SYS, every word of family 0 but CLS and RET, changes nothing but `pc` and signals nothing. -/
def Obligations.SysIsIgnored : Prop :=
  ∀ (nnn : Imm12) (s : State),
    (nnn ≠ 0x0E0#12 → nnn ≠ 0x0EE#12 → decodeWord (wordNNN 0x0#4 nnn) = some (.sys nnn)) ∧
    exec (.sys nnn) s = .next { s with pc := s.pc + 2#16 } ∧ report (.sys nnn) s = ⟨false, .none⟩

/-! ### Registers and ALU -/

/-- R161, R162: the immediate forms write V[x] and nothing else; 7xnn wraps mod 256 and leaves VF
unless it is V[x]. -/
def Obligations.ImmediateFormsWriteVx : Prop :=
  ∀ (x : Nibble) (nn : Byte) (s : State),
    decodeWord (wordXNN 0x6#4 x nn) = some (.ldImm x nn) ∧
    decodeWord (wordXNN 0x7#4 x nn) = some (.addImm x nn) ∧
    exec (.ldImm x nn) s = .next { s with V := s.V.set x.toNat nn x.isLt, pc := s.pc + 2#16 } ∧
    exec (.addImm x nn) s = .next { s with
      V := s.V.set x.toNat (BitVec.ofNat 8 (((s.reg x).toNat + nn.toNat) % 256)) x.isLt, pc := s.pc + 2#16 } ∧
    report (.ldImm x nn) s = ⟨false, .none⟩ ∧ report (.addImm x nn) s = ⟨false, .none⟩

/-- R163 to R166: assign, OR, AND, XOR write V[x], bit by bit, and nothing else; VF is left unless it
is V[x]. Rests on D9 (log 16) and on the sub-opcodes of G2. -/
def Obligations.AssignAndLogicWriteVxOnly : Prop :=
  ∀ (x y : Nibble) (s : State),
    ∃ a b c d, exec (.ldReg x y) s = .next a ∧ exec (.orReg x y) s = .next b ∧
      exec (.andReg x y) s = .next c ∧ exec (.xorReg x y) s = .next d ∧
      a.reg x = s.reg y ∧
      (∀ j < 8, (b.reg x).getLsbD j = ((s.reg x).getLsbD j || (s.reg y).getLsbD j)) ∧
      (∀ j < 8, (c.reg x).getLsbD j = ((s.reg x).getLsbD j && (s.reg y).getLsbD j)) ∧
      (∀ j < 8, (d.reg x).getLsbD j = ((s.reg x).getLsbD j ^^ (s.reg y).getLsbD j)) ∧
      ∀ t ∈ [a, b, c, d], t.pc = s.pc + 2#16 ∧ UnchangedBut (· = x) nowhere s t

/-- R167: V[x] becomes the sum mod 256; VF becomes the carry of the exact sum of the old values, unless
it is V[x], where the result survives (D10, log 17); nothing else changes. -/
def Obligations.AddReportsTheCarry : Prop :=
  ∀ (x y : Nibble) (s : State), ∃ t, exec (.addReg x y) s = .next t ∧
    t.reg x = BitVec.ofNat 8 (((s.reg x).toNat + (s.reg y).toNat) % 256) ∧
    (x ≠ 0xF#4 → t.reg 0xF#4 = if (s.reg x).toNat + (s.reg y).toNat > 255 then 1#8 else 0#8) ∧
    t.pc = s.pc + 2#16 ∧ UnchangedBut (fun r => r = x ∨ r = 0xF#4) nowhere s t ∧
    report (.addReg x y) s = ⟨false, .none⟩

/-- R168, R170: V[x] becomes the difference mod 256, V[x] - V[y] for SUB and V[y] - V[x] for SUBN (D13,
log 19); VF becomes 1 exactly when no borrow occurs, unless it is V[x] (D10, log 17). -/
def Obligations.SubtractionsReportNoBorrow : Prop :=
  ∀ (x y : Nibble) (s : State),
    (∃ t, exec (.sub x y) s = .next t ∧
      t.reg x = BitVec.ofNat 8 ((256 + (s.reg x).toNat - (s.reg y).toNat) % 256) ∧
      (x ≠ 0xF#4 → t.reg 0xF#4 = if (s.reg x).toNat ≥ (s.reg y).toNat then 1#8 else 0#8) ∧
      t.pc = s.pc + 2#16 ∧ UnchangedBut (fun r => r = x ∨ r = 0xF#4) nowhere s t ∧
      report (.sub x y) s = ⟨false, .none⟩) ∧
    ∃ t, exec (.subn x y) s = .next t ∧
      t.reg x = BitVec.ofNat 8 ((256 + (s.reg y).toNat - (s.reg x).toNat) % 256) ∧
      (x ≠ 0xF#4 → t.reg 0xF#4 = if (s.reg y).toNat ≥ (s.reg x).toNat then 1#8 else 0#8) ∧
      t.pc = s.pc + 2#16 ∧ UnchangedBut (fun r => r = x ∨ r = 0xF#4) nowhere s t ∧
      report (.subn x y) s = ⟨false, .none⟩

/-- R169, R171: one-bit logical shifts of V[x], y ignored (D11, log 10); VF becomes the lost bit (D12,
log 18) unless it is V[x] (D10, log 17). -/
def Obligations.ShiftsMoveVxByOneBit : Prop :=
  ∀ (x y : Nibble) (s : State),
    (∃ t, exec (.shr x y) s = .next t ∧
      t.reg x = BitVec.ofNat 8 ((s.reg x).toNat / 2) ∧
      (x ≠ 0xF#4 → t.reg 0xF#4 = BitVec.ofNat 8 ((s.reg x).toNat % 2)) ∧
      t.pc = s.pc + 2#16 ∧ UnchangedBut (fun r => r = x ∨ r = 0xF#4) nowhere s t ∧
      report (.shr x y) s = ⟨false, .none⟩) ∧
    ∃ t, exec (.shl x y) s = .next t ∧
      t.reg x = BitVec.ofNat 8 ((s.reg x).toNat * 2 % 256) ∧
      (x ≠ 0xF#4 → t.reg 0xF#4 = BitVec.ofNat 8 ((s.reg x).toNat / 128)) ∧
      t.pc = s.pc + 2#16 ∧ UnchangedBut (fun r => r = x ∨ r = 0xF#4) nowhere s t ∧
      report (.shl x y) s = ⟨false, .none⟩

/-- R169, R171 under any parameters with `SHIFT_SOURCE = Vy` (D11, log 10): the operand is V[y], and
everything else is as under the default: the lost bit (D12, log 18) in VF unless it is V[x], where the
result survives (D10, log 17), `pc + 2`, no report, and nothing else changed. -/
def Obligations.ShiftsUnderTheOtherSource : Prop :=
  ∀ (cfg : Config) (x y : Nibble) (s : State), cfg.shiftSource = .vy →
    (∃ t, execUnder cfg (.shr x y) s = .next t ∧
      t.reg x = BitVec.ofNat 8 ((s.reg y).toNat / 2) ∧
      (x ≠ 0xF#4 → t.reg 0xF#4 = BitVec.ofNat 8 ((s.reg y).toNat % 2)) ∧
      t.pc = s.pc + 2#16 ∧ UnchangedBut (fun r => r = x ∨ r = 0xF#4) nowhere s t ∧
      reportUnder cfg (.shr x y) s = ⟨false, .none⟩) ∧
    ∃ t, execUnder cfg (.shl x y) s = .next t ∧
      t.reg x = BitVec.ofNat 8 ((s.reg y).toNat * 2 % 256) ∧
      (x ≠ 0xF#4 → t.reg 0xF#4 = BitVec.ofNat 8 ((s.reg y).toNat / 128)) ∧
      t.pc = s.pc + 2#16 ∧ UnchangedBut (fun r => r = x ∨ r = 0xF#4) nowhere s t ∧
      reportUnder cfg (.shl x y) s = ⟨false, .none⟩

/-! ### Index register and memory -/

/-- R190, R192: `I` becomes nnn, or five times the low nibble of V[x]; nothing else changes. -/
def Obligations.IndexLoads : Prop :=
  ∀ (nnn : Imm12) (x : Nibble) (s : State),
    decodeWord (wordNNN 0xA#4 nnn) = some (.ldI nnn) ∧ decodeWord (wordXNN 0xF#4 x 0x29#8) = some (.ldF x) ∧
    exec (.ldI nnn) s = .next { s with I := BitVec.ofNat 16 nnn.toNat, pc := s.pc + 2#16 } ∧
    exec (.ldF x) s = .next { s with I := BitVec.ofNat 16 ((s.reg x).toNat % 16 * 5), pc := s.pc + 2#16 } ∧
    report (.ldI nnn) s = ⟨false, .none⟩ ∧ report (.ldF x) s = ⟨false, .none⟩

/-- R191: `I` becomes the sum mod 65536, VF included nothing else changes, and no value of `I` is an
anomaly here. Rests on D23 (log 30). -/
def Obligations.IndexAddWrapsAtSixteenBits : Prop :=
  ∀ (x : Nibble) (s : State),
    exec (.addI x) s = .next { s with
      I := BitVec.ofNat 16 ((s.I.toNat + (s.reg x).toNat) % 65536), pc := s.pc + 2#16 } ∧
    report (.addI x) s = ⟨false, .none⟩

/-- R194: V[k] is stored at I + k for each k up to x whose address is in memory; every other byte and
everything but `pc` is as before; a cut store is reported. Rests on D16 (log 22). -/
def Obligations.StoreRegistersWritesTheRangeInMemory : Prop :=
  ∀ (x : Nibble) (s : State), s.mem.wf → ∃ t, exec (.ldIVx x) s = .next t ∧ t.pc = s.pc + 2#16 ∧
    (∀ k : Nibble, k.toNat ≤ x.toNat → s.I.toNat + k.toNat ≤ 4095 →
      t.mem.read (s.I.toNat + k.toNat) = s.reg k) ∧
    UnchangedBut nowhere (fun a => s.I.toNat ≤ a ∧ a ≤ s.I.toNat + x.toNat ∧ a ≤ 4095) s t ∧
    report (.ldIVx x) s =
      ⟨false, if s.I.toNat + x.toNat > 4095 then .memoryBoundsViolation else .none⟩

/-- R193: hundreds, tens and units of V[x] at I, I + 1, I + 2, as far as those are in memory; every
other byte and everything but `pc` is as before; a cut store is reported. Rests on D16 (log 22). -/
def Obligations.StoreDigitsWritesHundredsTensUnits : Prop :=
  ∀ (x : Nibble) (s : State), s.mem.wf → ∃ t, exec (.ldB x) s = .next t ∧ t.pc = s.pc + 2#16 ∧
    (s.I.toNat ≤ 4095 → t.mem.read s.I.toNat = BitVec.ofNat 8 ((s.reg x).toNat / 100)) ∧
    (s.I.toNat + 1 ≤ 4095 → t.mem.read (s.I.toNat + 1) = BitVec.ofNat 8 ((s.reg x).toNat / 10 % 10)) ∧
    (s.I.toNat + 2 ≤ 4095 → t.mem.read (s.I.toNat + 2) = BitVec.ofNat 8 ((s.reg x).toNat % 10)) ∧
    UnchangedBut nowhere (fun a => s.I.toNat ≤ a ∧ a ≤ s.I.toNat + 2 ∧ a ≤ 4095) s t ∧
    report (.ldB x) s = ⟨false, if s.I.toNat + 2 > 4095 then .memoryBoundsViolation else .none⟩

/-- R195: V[k] becomes the byte at I + k for each k up to x whose address is in memory; the other
registers, all of memory and everything but `pc` are as before; a cut load is reported. Rests on D16
(log 22). -/
def Obligations.LoadRegistersReadsTheRangeInMemory : Prop :=
  ∀ (x : Nibble) (s : State), ∃ t, exec (.ldVxI x) s = .next t ∧ t.pc = s.pc + 2#16 ∧
    (∀ k : Nibble, k.toNat ≤ x.toNat → s.I.toNat + k.toNat ≤ 4095 →
      t.reg k = s.mem.read (s.I.toNat + k.toNat)) ∧
    UnchangedBut (fun k => k.toNat ≤ x.toNat ∧ s.I.toNat + k.toNat ≤ 4095) nowhere s t ∧
    report (.ldVxI x) s =
      ⟨false, if s.I.toNat + x.toNat > 4095 then .memoryBoundsViolation else .none⟩

/-- R70, R72: bytes stored by Fx55 are the ones a later Fx65 from the same address loads, whatever the
registers hold meanwhile, and the ones a later fetch reads. Rests on D16, D31 (logs 22, 32). -/
def Obligations.StoredBytesAreSeenLater : Prop :=
  ∀ (x : Nibble) (s t u : State), s.mem.wf → exec (.ldIVx x) s = .next t → u.mem = t.mem →
    (u.I = s.I → ∃ v, exec (.ldVxI x) u = .next v ∧
      ∀ k : Nibble, k.toNat ≤ x.toNat → s.I.toNat + k.toNat ≤ 4095 → v.reg k = s.reg k) ∧
    ∀ k : Nibble, k.toNat + 1 ≤ x.toNat → s.I.toNat + k.toNat + 1 ≤ 4095 →
      u.pc.toNat = s.I.toNat + k.toNat → u.fetch = some (wordOfBytes (s.reg k) (s.reg (k + 1#4)))

/-! ### Display -/

/-- R210: every cell off, the draw flag set, and nothing but `pc` besides; `draw_occurred` is reported on
any framebuffer, by D27 and C2 (log 27). -/
def Obligations.ClearScreenBlanksEveryCell : Prop :=
  ∀ s : State, decodeWord 0x00E0#16 = some .cls ∧ ∃ t, exec .cls s = .next t ∧
    (∀ (y : Fin 32) (x : Fin 64), t.fb.cell y x = false) ∧ t.draw = true ∧ t.pc = s.pc + 2#16 ∧
    UnchangedBut nowhere nowhere s { t with fb := s.fb, draw := s.draw } ∧
    report .cls s = ⟨true, .none⟩

/-- R211: exactly the cells of the sprite's set pixels, wrapped at 64 and 32, change; VF reports a
collision; the draw flag is set; memory, `I` and the rest are as before; a cut sprite is reported.
Rests on D16 to D20 (logs 22 to 26), and its `draw_occurred` on D27 (log 27). -/
def Obligations.DrawFlipsTheSpritePixels : Prop :=
  ∀ (x y n : Nibble) (s : State), ∃ t, exec (.drw x y n) s = .next t ∧ t.pc = s.pc + 2#16 ∧
    (∀ (r : Fin 32) (c : Fin 64), t.fb.cell r c ≠ s.fb.cell r c ↔
      spritePixel s.mem s.I.toNat (s.reg x) (s.reg y) n.toNat r c) ∧
    ((∃ (r : Fin 32) (c : Fin 64), s.fb.cell r c = true ∧
        spritePixel s.mem s.I.toNat (s.reg x) (s.reg y) n.toNat r c) → t.reg 0xF#4 = 1#8) ∧
    ((¬ ∃ (r : Fin 32) (c : Fin 64), s.fb.cell r c = true ∧
        spritePixel s.mem s.I.toNat (s.reg x) (s.reg y) n.toNat r c) → t.reg 0xF#4 = 0#8) ∧
    t.draw = true ∧ UnchangedBut (· = 0xF#4) nowhere s { t with fb := s.fb, draw := s.draw } ∧
    report (.drw x y n) s =
      ⟨true, if 1 ≤ n.toNat ∧ s.I.toNat + n.toNat - 1 > 4095 then .memoryBoundsViolation else .none⟩

/-- R212: VF after a draw is 1 when some cell that was on is off, else 0, whatever VF was; a cell turned
on is no collision. -/
def Obligations.CollisionIsACellTurnedOff : Prop :=
  ∀ (x y n : Nibble) (s : State), ∃ t, exec (.drw x y n) s = .next t ∧
    ((∃ (r : Fin 32) (c : Fin 64), s.fb.cell r c = true ∧ t.fb.cell r c = false) → t.reg 0xF#4 = 1#8) ∧
    ((∀ (r : Fin 32) (c : Fin 64), s.fb.cell r c = true → t.fb.cell r c = true) → t.reg 0xF#4 = 0#8)

/-- 95_test_vectors.md S7: a sprite drawn twice at the same location restores the framebuffer, and the
second draw collides exactly when the first turned some cell on. Rests on D16 to D19 (logs 22 to 25). -/
def Obligations.SecondDrawRestoresTheFramebuffer : Prop :=
  ∀ (x y n : Nibble) (s t : State), exec (.drw x y n) s = .next t →
    t.reg x = s.reg x → t.reg y = s.reg y → ∃ u, exec (.drw x y n) t = .next u ∧ u.fb = s.fb ∧
      (u.reg 0xF#4 = 1#8 ↔ ∃ (r : Fin 32) (c : Fin 64), s.fb.cell r c = false ∧ t.fb.cell r c = true)

/-! ### Keys, timers, random numbers -/

/-- R230, R231: the skips on the key of V[x]'s low nibble change nothing but `pc`. Rests on D21 (log 28). -/
def Obligations.SkipsOnKeys : Prop :=
  ∀ (x k : Nibble) (s : State), k.toNat = (s.reg x).toNat % 16 →
    exec (.skp x) s = .next { s with pc := if s.pressed k then s.pc + 4#16 else s.pc + 2#16 } ∧
    exec (.sknp x) s = .next { s with pc := if s.pressed k then s.pc + 2#16 else s.pc + 4#16 } ∧
    report (.skp x) s = ⟨false, .none⟩ ∧ report (.sknp x) s = ⟨false, .none⟩

/-- R232: with no key pressed nothing changes, `pc` included; with keys pressed the lowest (D22, log
11) goes to V[x] and `pc` advances by 2. -/
def Obligations.WaitForKeyHoldsOrStoresTheLowest : Prop :=
  ∀ (x : Nibble) (s : State), report (.ldVxK x) s = ⟨false, .none⟩ ∧
    ((∀ k, s.pressed k = false) → exec (.ldVxK x) s = .next s) ∧
    ∀ k : Nibble, s.pressed k = true → (∀ j : Nibble, j.toNat < k.toNat → s.pressed j = false) →
      exec (.ldVxK x) s = .next { s with
        V := s.V.set x.toNat (BitVec.ofNat 8 k.toNat) x.isLt, pc := s.pc + 2#16 }

/-- 95_test_vectors.md S8 under any `KEY_WAIT_CHOICE` that picks a pressed key: exactly one key pressed
is the one stored (log 11). -/
def Obligations.WaitForKeyUnderAnyChoice : Prop :=
  ∀ (choice : Vector Bool 16 → Nibble) (x k : Nibble) (s : State),
    s.pressed (choice s.key) = true → s.pressed k = true → (∀ j, s.pressed j = true → j = k) →
    (runLdVxK choice x s).state =
      { s with V := s.V.set x.toNat (BitVec.ofNat 8 k.toNat) x.isLt, pc := s.pc + 2#16 }

/-- R233 to R235: V[x] from DT, DT from V[x], ST from V[x], and the tone with it; nothing else but
`pc`. Which code is which is from G3 (log 31). -/
def Obligations.TimerTransfers : Prop :=
  ∀ (x : Nibble) (s : State),
    exec (.ldVxDt x) s = .next { s with V := s.V.set x.toNat s.DT x.isLt, pc := s.pc + 2#16 } ∧
    exec (.ldDtVx x) s = .next { s with DT := s.reg x, pc := s.pc + 2#16 } ∧
    (∃ t, exec (.ldStVx x) s = .next t ∧ t = { s with ST := s.reg x, pc := s.pc + 2#16 } ∧
      (t.tone = true ↔ 0 < (s.reg x).toNat)) ∧
    ∀ i ∈ [Instr.ldVxDt x, Instr.ldDtVx x, Instr.ldStVx x], report i s = ⟨false, .none⟩

/-- R238: each RND advances the seed by one call of the random source, nn = 0 included, and V[x] is the
low byte of the new seed (R239) masked by nn; no other instruction, and no operation but `reset` and `step`,
changes the seed. -/
def Obligations.RandomAdvancesTheSeedOnce : Prop :=
  (∀ (x : Nibble) (nn : Byte) (s : State),
    decodeWord (wordXNN 0xC#4 x nn) = some (.rnd x nn) ∧
    exec (.rnd x nn) s = .next { s with
      seed := params.rngNext s.seed,
      V := s.V.set x.toNat (BitVec.ofNat 8 ((params.rngNext s.seed).toNat % 256) &&& nn) x.isLt,
      pc := s.pc + 2#16 } ∧
    report (.rnd x nn) s = ⟨false, .none⟩) ∧
  (∀ (i : Instr) (s t : State), exec i s = .next t → (∀ x nn, i ≠ .rnd x nn) → t.seed = s.seed) ∧
  ∀ (op : Operation) (s t : State), (∀ seedIn, op ≠ .reset seedIn) → op ≠ .step →
    s.operate op = .next t → t.seed = s.seed

/-- R239: the random source is the exact linear-congruential formula, so a new seed is below M. Rests
on D25, D26 (log 12). -/
def Obligations.RandomSourceFormula : Prop :=
  ∀ seed : Seed, (params.rngNext seed).toNat = (seed.toNat * 1103515245 + 12345) % 2147483647 ∧
    (params.rngNext seed).toNat < 2147483647

/-- R236: a tick takes 1 from each timer above 0 and changes nothing else. -/
def Obligations.TickCountsBothTimersDown : Prop :=
  ∀ s : State, ∃ t, s.operate .tick = .next t ∧ t = { s with DT := t.DT, ST := t.ST } ∧
    t.DT.toNat = s.DT.toNat - 1 ∧ t.ST.toNat = s.ST.toNat - 1

/-- R234, R236: n ticks take n from each timer, stopping at 0, and change nothing else. -/
def Obligations.TicksRunTimersOut : Prop :=
  ∀ (n : Nat) (s : State), ∃ t, Block.run (List.replicate n .tick) (.live s) = .live t ∧
    t.DT.toNat = s.DT.toNat - n ∧ t.ST.toNat = s.ST.toNat - n ∧ t = { s with DT := t.DT, ST := t.ST }

/-! ### Operations of the block -/

/-- R31, R213: the draw flag is true after reset and after CLS and DRW, no instruction clears it,
`clear_draw` clears it and nothing else, no other operation turns it off, and no operation reads it. -/
def Obligations.DrawFlagIsSetByDrawingAndClearedByTheRenderer : Prop :=
  (∀ seedIn, (State.resetWith seedIn).draw = true) ∧
  (∀ (x y n : Nibble) (s : State), (∃ t, exec .cls s = .next t ∧ t.draw = true) ∧
    ∃ t, exec (.drw x y n) s = .next t ∧ t.draw = true) ∧
  (∀ (i : Instr) (s t : State), exec i s = .next t →
    t.draw = s.draw ∨ (t.draw = true ∧ (i = .cls ∨ ∃ x y n, i = .drw x y n))) ∧
  (∀ s : State, s.operate .clearDraw = .next { s with draw := false }) ∧
  (∀ (op : Operation) (s t : State), op ≠ .clearDraw → s.draw = true → s.operate op = .next t →
    t.draw = true) ∧
  ∀ (op : Operation) (s t : State) (d : Bool), s.operate op = .next t →
    ∃ t', State.operate { s with draw := d } op = .next t' ∧ { t' with draw := t.draw } = t ∧
      State.reply { s with draw := d } op = s.reply op

/-- R240: `set_key` on an index 0..15 changes that key and nothing else; another index has no meaning.
Rests on D32 (log 8). -/
def Obligations.SetKeyWritesOneKey : Prop :=
  ∀ (k : Nat) (b : Bool) (s : State),
    (k < 16 → ∃ t, s.operate (.setKey k b) = .next t ∧
      (∀ j : Nibble, t.pressed j = if j.toNat = k then b else s.pressed j) ∧ t = { s with key := t.key }) ∧
    (16 ≤ k → s.operate (.setKey k b) = .refused (.illegalKeyIndex k))

/-- R292: a ROM of at most 3584 bytes reads back at 0x200 and changes nothing else; a longer one is
rejected and changes nothing. Rests on D29 (log 33). -/
def Obligations.LoadRoundTripsOrChangesNothing : Prop :=
  ∀ (bytes : List Byte) (s : State), s.mem.wf →
    (bytes.length ≤ 3584 → ∃ t, s.operate (.load bytes) = .next t ∧ s.reply (.load bytes) = .loaded .ok ∧
      (∀ k < bytes.length, some (t.mem.read (0x200 + k)) = bytes[k]?) ∧ t.pc = s.pc ∧
      UnchangedBut nowhere (fun a => 0x200 ≤ a ∧ a < 0x200 + bytes.length) s t) ∧
    (3584 < bytes.length →
      s.operate (.load bytes) = .next s ∧ s.reply (.load bytes) = .loaded .romTooLarge)

/-- R290: the state after `reset(seed_in)`, from any block, faulted ones included, under any parameters.
The font bytes are the parameter `FONT` (D24, log 9), the seed the input (D25). -/
def Obligations.ResetDefinesEveryElement : Prop :=
  ∀ (cfg : Config) (seedIn : Seed) (b : Block), ∃ t, Block.applyUnder cfg (.reset seedIn) b = .next t ∧
    (∀ (a : Nat) (h : a < 80), t.mem.read a = cfg.font[a]) ∧ (∀ a, 80 ≤ a → t.mem.read a = 0#8) ∧
    (∀ r, t.reg r = 0#8) ∧ t.I = 0#16 ∧ t.pc = 0x200#16 ∧ (∀ k : Fin 16, t.stack[k.val] = 0#16) ∧
    t.sp.val = 0 ∧ t.DT = 0#8 ∧ t.ST = 0#8 ∧ (∀ (y : Fin 32) (x : Fin 64), t.fb.cell y x = false) ∧
    (∀ k, t.pressed k = false) ∧ t.draw = true ∧ t.seed = seedIn ∧ t.tone = false

/-- R291: before the first reset every operation but `reset` is the fault NotReset, and so is any
sequence of them. Rests on D3 (log 5). -/
def Obligations.NothingHasMeaningBeforeReset : Prop :=
  ∀ ops : List Operation, ops ≠ [] → (∀ op ∈ ops, ∀ seedIn, op ≠ .reset seedIn) →
    Block.run ops .unreset = .faulted .notReset

/-! ### Whole-machine rules -/

/-- R268: which instruction signals what, and when; every other instruction never does. -/
def Obligations.AnomaliesFollowTheTable : Prop :=
  ∀ (i : Instr) (s : State), (report i s).anomaly = tableAnomaly i s

/-- R124: `draw_occurred` is true exactly for CLS and DRW. Rests on D27 (log 27). -/
def Obligations.DrawOccurredExactlyForClsAndDrw : Prop :=
  ∀ (i : Instr) (s : State), (report i s).drawOccurred = true ↔ i = .cls ∨ ∃ x y n, i = .drw x y n

/-- R20, the column "written by", for every element but `pc`: memory is written by Fx33 and Fx55 only, V
by the instructions of its row, `I` by Annn, Fx1E and Fx29, the stack slots by 2nnn, `sp` by 2nnn and 00EE,
DT by Fx15, ST by Fx18, the framebuffer and the draw flag by 00E0 and Dxyn, the seed by Cxnn, and the key
matrix by no instruction. -/
def Obligations.OnlyTheirInstructionsWriteStateElements : Prop :=
  ∀ (i : Instr) (s t : State), exec i s = .next t →
    (t.mem ≠ s.mem → ∃ x, i = .ldB x ∨ i = .ldIVx x) ∧
    (t.V ≠ s.V → (∃ x nn, i = .ldImm x nn ∨ i = .addImm x nn ∨ i = .rnd x nn) ∨
      (∃ x y, i = .ldReg x y ∨ i = .orReg x y ∨ i = .andReg x y ∨ i = .xorReg x y ∨ i = .addReg x y ∨
        i = .sub x y ∨ i = .shr x y ∨ i = .subn x y ∨ i = .shl x y) ∨
      (∃ x y n, i = .drw x y n) ∨ ∃ x, i = .ldVxDt x ∨ i = .ldVxK x ∨ i = .ldVxI x) ∧
    (t.I ≠ s.I → (∃ nnn, i = .ldI nnn) ∨ ∃ x, i = .addI x ∨ i = .ldF x) ∧
    (t.stack ≠ s.stack → ∃ nnn, i = .call nnn) ∧ (t.sp ≠ s.sp → i = .ret ∨ ∃ nnn, i = .call nnn) ∧
    (t.DT ≠ s.DT → ∃ x, i = .ldDtVx x) ∧ (t.ST ≠ s.ST → ∃ x, i = .ldStVx x) ∧
    (t.fb ≠ s.fb → i = .cls ∨ ∃ x y n, i = .drw x y n) ∧
    (t.draw ≠ s.draw → i = .cls ∨ ∃ x y n, i = .drw x y n) ∧
    (t.seed ≠ s.seed → ∃ x nn, i = .rnd x nn) ∧ t.key = s.key

/-- R23: an instruction that changes VF is one of the six that write it as a flag, or names it as its
destination (as the last of the range for FF65). Rests on D9, D23 (logs 16, 30). -/
def Obligations.FlagWriters : Prop :=
  ∀ (i : Instr) (s t : State), exec i s = .next t → t.reg 0xF#4 ≠ s.reg 0xF#4 →
    (∃ x y, i = .addReg x y ∨ i = .sub x y ∨ i = .shr x y ∨ i = .subn x y ∨ i = .shl x y) ∨
    (∃ x y n, i = .drw x y n) ∨
    (∃ nn, i = .ldImm 0xF#4 nn ∨ i = .addImm 0xF#4 nn ∨ i = .rnd 0xF#4 nn) ∨
    (∃ y, i = .ldReg 0xF#4 y ∨ i = .orReg 0xF#4 y ∨ i = .andReg 0xF#4 y ∨ i = .xorReg 0xF#4 y) ∨
    i = .ldVxDt 0xF#4 ∨ i = .ldVxK 0xF#4 ∨ i = .ldVxI 0xF#4

/-- R26, R28, R213: what no instruction reads no program observes: states that differ in dead stack
slots, the sound timer and the draw flag take the same steps with the same reports. -/
def Obligations.InvisibleStateIsNeverObserved : Prop :=
  ∀ s s' t : State, SameToProgram s s' → step s = .next t →
    ∃ t', step s' = .next t' ∧ SameToProgram t t' ∧ stepReport s' = stepReport s

/-- R294: at a jump to itself every number of steps leaves the state as it is. -/
def Obligations.SelfJumpIsAFixedPoint : Prop :=
  ∀ (s : State) (nnn : Imm12) (n : Nat), s.pc = BitVec.ofNat 16 nnn.toNat → nnn.toNat ≤ 4094 →
    s.fetch = some (wordNNN 0x1#4 nnn) → Sys2Proof.core.run n s = .next s

/-- The canonical form of memory: canonical memories that read alike are equal. The model's form (log
3). -/
def Obligations.CanonicalMemoriesThatReadAlikeAreEqual : Prop :=
  ∀ m m' : Memory, m.wf → m'.wf → (∀ a, a ≤ 4095 → m.read a = m'.read a) → m = m'

/-! ### The invariant -/

/-- The invariant holds after every reset (R290), under any parameters. -/
def Obligations.InvariantHoldsAfterReset : Prop :=
  ∀ seedIn, (State.resetWith seedIn).Inv ∧ ∀ cfg, (State.resetUnder cfg seedIn).Inv

/-- R25, R142, R60: every step from a state with canonical memory, `pc` at most 0x10FE and live stack
slots at most 4096 gives such a state. -/
def Obligations.StepKeepsTheInvariant : Prop :=
  ∀ s t : State, s.Inv → step s = .next t → t.Inv

/-- R36, R38: the invariant holds along every sequence of operations, in any order and with any loads,
ticks and keys, under any parameters. -/
def Obligations.AnyOperationsKeepTheInvariant : Prop :=
  ∀ (cfg : Config) (ops : List Operation) (b : Block), b.Inv → (Block.runUnder cfg ops b).Inv

/-! ### The parameters -/

/-- R4, of the 35 instructions: under any parameters every instruction completes with the `pc` of its
class and the default's report, the report of a step is the default's, and any instruction but SHR, SHL,
Fx0A and RND does what it does under the defaults. RND takes the seed from `rng_next` (D25, log 12), and
Fx0A holds with no key pressed and otherwise, under a choice R232 allows, stores a pressed key
(D22, log 11). Rests also on D11, D14, D21 (logs 10, 20, 28). -/
def Obligations.ParametersReachOnlyTheirInstructions : Prop :=
  (∀ (cfg : Config) (i : Instr) (s : State), reportUnder cfg i s = report i s ∧
    (∃ t, execUnder cfg i s = .next t ∧ t.pc = tablePc i s) ∧
    ((∀ x y, i ≠ .shr x y ∧ i ≠ .shl x y) → (∀ x, i ≠ .ldVxK x) → (∀ x nn, i ≠ .rnd x nn) →
      execUnder cfg i s = exec i s)) ∧
  (∀ (cfg : Config) (s : State), stepReportUnder cfg s = stepReport s) ∧
  (∀ (cfg : Config) (x : Nibble) (nn : Byte) (s : State), execUnder cfg (.rnd x nn) s = .next { s with
    seed := cfg.rngNext s.seed,
    V := s.V.set x.toNat (BitVec.ofNat 8 ((cfg.rngNext s.seed).toNat % 256) &&& nn) x.isLt,
    pc := s.pc + 2#16 }) ∧
  ∀ (cfg : Config) (x : Nibble) (s : State),
    ((∀ k, s.pressed k = false) → execUnder cfg (.ldVxK x) s = .next s) ∧
    (cfg.PicksPressed → (∃ k, s.pressed k = true) → ∃ j, s.pressed j = true ∧
      execUnder cfg (.ldVxK x) s = .next { s with
        V := s.V.set x.toNat (BitVec.ofNat 8 j.toNat) x.isLt, pc := s.pc + 2#16 })
end

