-- ==== Sys2Proof/Laws/State.lean ====
section
/-! SUPPORT. One lemma per field per state update, and the register file's read and write laws. -/

namespace Sys2Proof.Machine

/-! ### `setReg` -/

@[simp] theorem State.setReg_mem (s : State) (x : Nibble) (v : Byte) : (s.setReg x v).mem = s.mem := rfl
@[simp] theorem State.setReg_V (s : State) (x : Nibble) (v : Byte) : (s.setReg x v).V = s.V.set x.toNat v x.isLt := rfl
@[simp] theorem State.setReg_I (s : State) (x : Nibble) (v : Byte) : (s.setReg x v).I = s.I := rfl
@[simp] theorem State.setReg_pc (s : State) (x : Nibble) (v : Byte) : (s.setReg x v).pc = s.pc := rfl
@[simp] theorem State.setReg_stack (s : State) (x : Nibble) (v : Byte) : (s.setReg x v).stack = s.stack := rfl
@[simp] theorem State.setReg_sp (s : State) (x : Nibble) (v : Byte) : (s.setReg x v).sp = s.sp := rfl
@[simp] theorem State.setReg_DT (s : State) (x : Nibble) (v : Byte) : (s.setReg x v).DT = s.DT := rfl
@[simp] theorem State.setReg_ST (s : State) (x : Nibble) (v : Byte) : (s.setReg x v).ST = s.ST := rfl
@[simp] theorem State.setReg_fb (s : State) (x : Nibble) (v : Byte) : (s.setReg x v).fb = s.fb := rfl
@[simp] theorem State.setReg_key (s : State) (x : Nibble) (v : Byte) : (s.setReg x v).key = s.key := rfl
@[simp] theorem State.setReg_draw (s : State) (x : Nibble) (v : Byte) : (s.setReg x v).draw = s.draw := rfl
@[simp] theorem State.setReg_seed (s : State) (x : Nibble) (v : Byte) : (s.setReg x v).seed = s.seed := rfl

/-! ### `advance` -/

@[simp] theorem State.advance_mem (s : State) : s.advance.mem = s.mem := rfl
@[simp] theorem State.advance_V (s : State) : s.advance.V = s.V := rfl
@[simp] theorem State.advance_I (s : State) : s.advance.I = s.I := rfl
@[simp] theorem State.advance_pc (s : State) : s.advance.pc = s.pc + 2#16 := rfl
@[simp] theorem State.advance_stack (s : State) : s.advance.stack = s.stack := rfl
@[simp] theorem State.advance_sp (s : State) : s.advance.sp = s.sp := rfl
@[simp] theorem State.advance_DT (s : State) : s.advance.DT = s.DT := rfl
@[simp] theorem State.advance_ST (s : State) : s.advance.ST = s.ST := rfl
@[simp] theorem State.advance_fb (s : State) : s.advance.fb = s.fb := rfl
@[simp] theorem State.advance_key (s : State) : s.advance.key = s.key := rfl
@[simp] theorem State.advance_draw (s : State) : s.advance.draw = s.draw := rfl
@[simp] theorem State.advance_seed (s : State) : s.advance.seed = s.seed := rfl

/-! ### `skipIf` -/

@[simp] theorem State.skipIf_mem (s : State) (c : Bool) : (s.skipIf c).mem = s.mem := rfl
@[simp] theorem State.skipIf_V (s : State) (c : Bool) : (s.skipIf c).V = s.V := rfl
@[simp] theorem State.skipIf_I (s : State) (c : Bool) : (s.skipIf c).I = s.I := rfl
@[simp] theorem State.skipIf_pc (s : State) (c : Bool) : (s.skipIf c).pc = if c then s.pc + 4#16 else s.pc + 2#16 := rfl
@[simp] theorem State.skipIf_stack (s : State) (c : Bool) : (s.skipIf c).stack = s.stack := rfl
@[simp] theorem State.skipIf_sp (s : State) (c : Bool) : (s.skipIf c).sp = s.sp := rfl
@[simp] theorem State.skipIf_DT (s : State) (c : Bool) : (s.skipIf c).DT = s.DT := rfl
@[simp] theorem State.skipIf_ST (s : State) (c : Bool) : (s.skipIf c).ST = s.ST := rfl
@[simp] theorem State.skipIf_fb (s : State) (c : Bool) : (s.skipIf c).fb = s.fb := rfl
@[simp] theorem State.skipIf_key (s : State) (c : Bool) : (s.skipIf c).key = s.key := rfl
@[simp] theorem State.skipIf_draw (s : State) (c : Bool) : (s.skipIf c).draw = s.draw := rfl
@[simp] theorem State.skipIf_seed (s : State) (c : Bool) : (s.skipIf c).seed = s.seed := rfl

/-! ### `jumpTo` -/

@[simp] theorem State.jumpTo_mem (s : State) (t : Word) : (s.jumpTo t).mem = s.mem := rfl
@[simp] theorem State.jumpTo_V (s : State) (t : Word) : (s.jumpTo t).V = s.V := rfl
@[simp] theorem State.jumpTo_I (s : State) (t : Word) : (s.jumpTo t).I = s.I := rfl
@[simp] theorem State.jumpTo_pc (s : State) (t : Word) : (s.jumpTo t).pc = t := rfl
@[simp] theorem State.jumpTo_stack (s : State) (t : Word) : (s.jumpTo t).stack = s.stack := rfl
@[simp] theorem State.jumpTo_sp (s : State) (t : Word) : (s.jumpTo t).sp = s.sp := rfl
@[simp] theorem State.jumpTo_DT (s : State) (t : Word) : (s.jumpTo t).DT = s.DT := rfl
@[simp] theorem State.jumpTo_ST (s : State) (t : Word) : (s.jumpTo t).ST = s.ST := rfl
@[simp] theorem State.jumpTo_fb (s : State) (t : Word) : (s.jumpTo t).fb = s.fb := rfl
@[simp] theorem State.jumpTo_key (s : State) (t : Word) : (s.jumpTo t).key = s.key := rfl
@[simp] theorem State.jumpTo_draw (s : State) (t : Word) : (s.jumpTo t).draw = s.draw := rfl
@[simp] theorem State.jumpTo_seed (s : State) (t : Word) : (s.jumpTo t).seed = s.seed := rfl

/-! ### `push` -/

@[simp] theorem State.push_mem (s : State) (w : Word) (h : s.sp.val < 16) : (s.push w h).mem = s.mem := rfl
@[simp] theorem State.push_V (s : State) (w : Word) (h : s.sp.val < 16) : (s.push w h).V = s.V := rfl
@[simp] theorem State.push_I (s : State) (w : Word) (h : s.sp.val < 16) : (s.push w h).I = s.I := rfl
@[simp] theorem State.push_pc (s : State) (w : Word) (h : s.sp.val < 16) : (s.push w h).pc = s.pc := rfl
@[simp] theorem State.push_stack (s : State) (w : Word) (h : s.sp.val < 16) : (s.push w h).stack = s.stack.set s.sp.val w h := rfl
@[simp] theorem State.push_sp (s : State) (w : Word) (h : s.sp.val < 16) : (s.push w h).sp = ⟨s.sp.val + 1, by omega⟩ := rfl
@[simp] theorem State.push_DT (s : State) (w : Word) (h : s.sp.val < 16) : (s.push w h).DT = s.DT := rfl
@[simp] theorem State.push_ST (s : State) (w : Word) (h : s.sp.val < 16) : (s.push w h).ST = s.ST := rfl
@[simp] theorem State.push_fb (s : State) (w : Word) (h : s.sp.val < 16) : (s.push w h).fb = s.fb := rfl
@[simp] theorem State.push_key (s : State) (w : Word) (h : s.sp.val < 16) : (s.push w h).key = s.key := rfl
@[simp] theorem State.push_draw (s : State) (w : Word) (h : s.sp.val < 16) : (s.push w h).draw = s.draw := rfl
@[simp] theorem State.push_seed (s : State) (w : Word) (h : s.sp.val < 16) : (s.push w h).seed = s.seed := rfl

/-! ### `pop` -/

@[simp] theorem State.pop_mem (s : State) : s.pop.mem = s.mem := rfl
@[simp] theorem State.pop_V (s : State) : s.pop.V = s.V := rfl
@[simp] theorem State.pop_I (s : State) : s.pop.I = s.I := rfl
@[simp] theorem State.pop_pc (s : State) : s.pop.pc = s.pc := rfl
@[simp] theorem State.pop_stack (s : State) : s.pop.stack = s.stack := rfl
@[simp] theorem State.pop_sp (s : State) : s.pop.sp = ⟨s.sp.val - 1, by omega⟩ := rfl
@[simp] theorem State.pop_DT (s : State) : s.pop.DT = s.DT := rfl
@[simp] theorem State.pop_ST (s : State) : s.pop.ST = s.ST := rfl
@[simp] theorem State.pop_fb (s : State) : s.pop.fb = s.fb := rfl
@[simp] theorem State.pop_key (s : State) : s.pop.key = s.key := rfl
@[simp] theorem State.pop_draw (s : State) : s.pop.draw = s.draw := rfl
@[simp] theorem State.pop_seed (s : State) : s.pop.seed = s.seed := rfl

/-! ### `tick` -/

@[simp] theorem State.tick_mem (s : State) : s.tick.mem = s.mem := rfl
@[simp] theorem State.tick_V (s : State) : s.tick.V = s.V := rfl
@[simp] theorem State.tick_I (s : State) : s.tick.I = s.I := rfl
@[simp] theorem State.tick_pc (s : State) : s.tick.pc = s.pc := rfl
@[simp] theorem State.tick_stack (s : State) : s.tick.stack = s.stack := rfl
@[simp] theorem State.tick_sp (s : State) : s.tick.sp = s.sp := rfl
@[simp] theorem State.tick_DT (s : State) : s.tick.DT = countDown s.DT := rfl
@[simp] theorem State.tick_ST (s : State) : s.tick.ST = countDown s.ST := rfl
@[simp] theorem State.tick_fb (s : State) : s.tick.fb = s.fb := rfl
@[simp] theorem State.tick_key (s : State) : s.tick.key = s.key := rfl
@[simp] theorem State.tick_draw (s : State) : s.tick.draw = s.draw := rfl
@[simp] theorem State.tick_seed (s : State) : s.tick.seed = s.seed := rfl

/-! ### `setKey` -/

@[simp] theorem State.setKey_mem (s : State) (k : Nat) (b : Bool) (h : k < 16) : (s.setKey k b h).mem = s.mem := rfl
@[simp] theorem State.setKey_V (s : State) (k : Nat) (b : Bool) (h : k < 16) : (s.setKey k b h).V = s.V := rfl
@[simp] theorem State.setKey_I (s : State) (k : Nat) (b : Bool) (h : k < 16) : (s.setKey k b h).I = s.I := rfl
@[simp] theorem State.setKey_pc (s : State) (k : Nat) (b : Bool) (h : k < 16) : (s.setKey k b h).pc = s.pc := rfl
@[simp] theorem State.setKey_stack (s : State) (k : Nat) (b : Bool) (h : k < 16) : (s.setKey k b h).stack = s.stack := rfl
@[simp] theorem State.setKey_sp (s : State) (k : Nat) (b : Bool) (h : k < 16) : (s.setKey k b h).sp = s.sp := rfl
@[simp] theorem State.setKey_DT (s : State) (k : Nat) (b : Bool) (h : k < 16) : (s.setKey k b h).DT = s.DT := rfl
@[simp] theorem State.setKey_ST (s : State) (k : Nat) (b : Bool) (h : k < 16) : (s.setKey k b h).ST = s.ST := rfl
@[simp] theorem State.setKey_fb (s : State) (k : Nat) (b : Bool) (h : k < 16) : (s.setKey k b h).fb = s.fb := rfl
@[simp] theorem State.setKey_key (s : State) (k : Nat) (b : Bool) (h : k < 16) : (s.setKey k b h).key = s.key.set k b h := rfl
@[simp] theorem State.setKey_draw (s : State) (k : Nat) (b : Bool) (h : k < 16) : (s.setKey k b h).draw = s.draw := rfl
@[simp] theorem State.setKey_seed (s : State) (k : Nat) (b : Bool) (h : k < 16) : (s.setKey k b h).seed = s.seed := rfl

/-! ### `clearDraw` -/

@[simp] theorem State.clearDraw_mem (s : State) : s.clearDraw.mem = s.mem := rfl
@[simp] theorem State.clearDraw_V (s : State) : s.clearDraw.V = s.V := rfl
@[simp] theorem State.clearDraw_I (s : State) : s.clearDraw.I = s.I := rfl
@[simp] theorem State.clearDraw_pc (s : State) : s.clearDraw.pc = s.pc := rfl
@[simp] theorem State.clearDraw_stack (s : State) : s.clearDraw.stack = s.stack := rfl
@[simp] theorem State.clearDraw_sp (s : State) : s.clearDraw.sp = s.sp := rfl
@[simp] theorem State.clearDraw_DT (s : State) : s.clearDraw.DT = s.DT := rfl
@[simp] theorem State.clearDraw_ST (s : State) : s.clearDraw.ST = s.ST := rfl
@[simp] theorem State.clearDraw_fb (s : State) : s.clearDraw.fb = s.fb := rfl
@[simp] theorem State.clearDraw_key (s : State) : s.clearDraw.key = s.key := rfl
@[simp] theorem State.clearDraw_draw (s : State) : s.clearDraw.draw = false := rfl
@[simp] theorem State.clearDraw_seed (s : State) : s.clearDraw.seed = s.seed := rfl

/-! ### Registers -/

/-- A register written reads as the value; every other register is as before (R22). -/
theorem State.reg_setReg (s : State) (x y : Nibble) (v : Byte) :
    (s.setReg x v).reg y = if y = x then v else s.reg y := by
  unfold State.reg
  by_cases h : y = x
  · subst h; simp
  · have : x.toNat ≠ y.toNat := fun e => h (BitVec.eq_of_toNat_eq e.symm)
    simp [h, this]

@[simp] theorem State.reg_setReg_self (s : State) (x : Nibble) (v : Byte) : (s.setReg x v).reg x = v := by
  simp [State.reg_setReg]

theorem State.reg_setReg_ne (s : State) {x y : Nibble} (v : Byte) (h : y ≠ x) :
    (s.setReg x v).reg y = s.reg y := by
  simp [State.reg_setReg, h]

/-- Equal register files are those with equal registers. -/
theorem State.V_ext {s t : State} (h : ∀ r, t.reg r = s.reg r) : t.V = s.V := by
  apply Vector.ext
  intro i hi
  have := h (BitVec.ofNat 4 i)
  simpa [State.reg, Nat.mod_eq_of_lt hi] using this

/-! Updates that write no register. -/

@[simp] theorem State.advance_reg (s : State) (x : Nibble) : s.advance.reg x = s.reg x := rfl
@[simp] theorem State.skipIf_reg (s : State) (c : Bool) (x : Nibble) : (s.skipIf c).reg x = s.reg x := rfl
@[simp] theorem State.jumpTo_reg (s : State) (t : Word) (x : Nibble) : (s.jumpTo t).reg x = s.reg x := rfl
@[simp] theorem State.push_reg (s : State) (w : Word) (h : s.sp.val < 16) (x : Nibble) : (s.push w h).reg x = s.reg x := rfl
@[simp] theorem State.pop_reg (s : State) (x : Nibble) : s.pop.reg x = s.reg x := rfl
@[simp] theorem State.tick_reg (s : State) (x : Nibble) : s.tick.reg x = s.reg x := rfl
@[simp] theorem State.setKey_reg (s : State) (k : Nat) (b : Bool) (h : k < 16) (x : Nibble) : (s.setKey k b h).reg x = s.reg x := rfl
@[simp] theorem State.clearDraw_reg (s : State) (x : Nibble) : s.clearDraw.reg x = s.reg x := rfl
@[simp] theorem State.with_mem_reg (s : State) (v : Memory) (x : Nibble) :
    ({ s with mem := v } : State).reg x = s.reg x := rfl
@[simp] theorem State.with_I_reg (s : State) (v : Word) (x : Nibble) :
    ({ s with I := v } : State).reg x = s.reg x := rfl
@[simp] theorem State.with_pc_reg (s : State) (v : Word) (x : Nibble) :
    ({ s with pc := v } : State).reg x = s.reg x := rfl
@[simp] theorem State.with_DT_reg (s : State) (v : Byte) (x : Nibble) :
    ({ s with DT := v } : State).reg x = s.reg x := rfl
@[simp] theorem State.with_ST_reg (s : State) (v : Byte) (x : Nibble) :
    ({ s with ST := v } : State).reg x = s.reg x := rfl
@[simp] theorem State.with_seed_reg (s : State) (v : Seed) (x : Nibble) :
    ({ s with seed := v } : State).reg x = s.reg x := rfl
@[simp] theorem State.with_display_reg (s : State) (v : Framebuffer) (d : Bool) (x : Nibble) :
    ({ s with fb := v, draw := d } : State).reg x = s.reg x := rfl

/-! ### The flag-writing order (R160) -/

/-- R160: the destination holds the result; VF holds the flag unless it is the destination; every
other register is as before. -/
theorem State.setFlagThenReg_reg (s : State) (x r : Nibble) (flag : Bool) (v : Byte) :
    (s.setFlagThenReg x flag v).reg r =
      if r = x then v else if r = flagReg then flagByte flag else s.reg r := by
  simp only [State.setFlagThenReg, State.reg_setReg]

@[simp] theorem State.setFlagThenReg_mem (s : State) (x : Nibble) (c : Bool) (v : Byte) :
    (s.setFlagThenReg x c v).mem = s.mem := rfl
@[simp] theorem State.setFlagThenReg_I (s : State) (x : Nibble) (c : Bool) (v : Byte) :
    (s.setFlagThenReg x c v).I = s.I := rfl
@[simp] theorem State.setFlagThenReg_pc (s : State) (x : Nibble) (c : Bool) (v : Byte) :
    (s.setFlagThenReg x c v).pc = s.pc := rfl
@[simp] theorem State.setFlagThenReg_stack (s : State) (x : Nibble) (c : Bool) (v : Byte) :
    (s.setFlagThenReg x c v).stack = s.stack := rfl
@[simp] theorem State.setFlagThenReg_sp (s : State) (x : Nibble) (c : Bool) (v : Byte) :
    (s.setFlagThenReg x c v).sp = s.sp := rfl
@[simp] theorem State.setFlagThenReg_DT (s : State) (x : Nibble) (c : Bool) (v : Byte) :
    (s.setFlagThenReg x c v).DT = s.DT := rfl
@[simp] theorem State.setFlagThenReg_ST (s : State) (x : Nibble) (c : Bool) (v : Byte) :
    (s.setFlagThenReg x c v).ST = s.ST := rfl
@[simp] theorem State.setFlagThenReg_fb (s : State) (x : Nibble) (c : Bool) (v : Byte) :
    (s.setFlagThenReg x c v).fb = s.fb := rfl
@[simp] theorem State.setFlagThenReg_key (s : State) (x : Nibble) (c : Bool) (v : Byte) :
    (s.setFlagThenReg x c v).key = s.key := rfl
@[simp] theorem State.setFlagThenReg_draw (s : State) (x : Nibble) (c : Bool) (v : Byte) :
    (s.setFlagThenReg x c v).draw = s.draw := rfl
@[simp] theorem State.setFlagThenReg_seed (s : State) (x : Nibble) (c : Bool) (v : Byte) :
    (s.setFlagThenReg x c v).seed = s.seed := rfl

/-! ### Loading consecutive registers (R195) -/

/-- `setRegsFrom` writes registers only. -/
theorem State.setRegsFrom_frame (k : Nat) (vs : List Byte) (s : State) :
    ∃ V, State.setRegsFrom k vs s = { s with V := V } := by
  induction vs generalizing k s with
  | nil => exact ⟨s.V, rfl⟩
  | cons v vs ih => obtain ⟨V, h⟩ := ih (k + 1) (s.setReg (BitVec.ofNat 4 k) v); exact ⟨V, h⟩

/-- `setRegsFrom k vs` puts the j-th byte in register k + j and leaves the others (R195). -/
theorem State.setRegsFrom_reg (k : Nat) (vs : List Byte) (s : State) (h : k + vs.length ≤ 16) (r : Nibble) :
    (State.setRegsFrom k vs s).reg r =
      if k ≤ r.toNat then (vs[r.toNat - k]?).getD (s.reg r) else s.reg r := by
  induction vs generalizing k s with
  | nil => simp [State.setRegsFrom]
  | cons v vs ih =>
    have hl : k + 1 + vs.length ≤ 16 := by simp only [List.length_cons] at h; omega
    have hk : (BitVec.ofNat 4 k).toNat = k := by
      simp only [List.length_cons] at h; simp; omega
    rw [State.setRegsFrom, ih (k + 1) _ hl, State.reg_setReg]
    rcases Nat.lt_trichotomy r.toNat k with hlt | heq | hgt
    · have hne : r ≠ BitVec.ofNat 4 k := fun e => by rw [e, hk] at hlt; omega
      simp [hne, show ¬ k + 1 ≤ r.toNat by omega, show ¬ k ≤ r.toNat by omega]
    · have he : r = BitVec.ofNat 4 k := BitVec.eq_of_toNat_eq (by rw [hk, heq])
      rw [if_neg (show ¬ k + 1 ≤ r.toNat by omega), if_pos he, if_pos (by omega),
        show r.toNat - k = 0 by omega]
      rfl
    · have hne : r ≠ BitVec.ofNat 4 k := fun e => by rw [e, hk] at hgt; omega
      rw [if_pos (show k + 1 ≤ r.toNat by omega), if_pos (show k ≤ r.toNat by omega), if_neg hne,
        show r.toNat - k = (r.toNat - (k + 1)) + 1 by omega, List.getElem?_cons_succ]


@[simp] theorem State.setRegsFrom_mem (k : Nat) (vs : List Byte) (s : State) :
    (State.setRegsFrom k vs s).mem = s.mem := by
  obtain ⟨V, h⟩ := State.setRegsFrom_frame k vs s; rw [h]
@[simp] theorem State.setRegsFrom_I (k : Nat) (vs : List Byte) (s : State) :
    (State.setRegsFrom k vs s).I = s.I := by
  obtain ⟨V, h⟩ := State.setRegsFrom_frame k vs s; rw [h]
@[simp] theorem State.setRegsFrom_pc (k : Nat) (vs : List Byte) (s : State) :
    (State.setRegsFrom k vs s).pc = s.pc := by
  obtain ⟨V, h⟩ := State.setRegsFrom_frame k vs s; rw [h]
@[simp] theorem State.setRegsFrom_stack (k : Nat) (vs : List Byte) (s : State) :
    (State.setRegsFrom k vs s).stack = s.stack := by
  obtain ⟨V, h⟩ := State.setRegsFrom_frame k vs s; rw [h]
@[simp] theorem State.setRegsFrom_sp (k : Nat) (vs : List Byte) (s : State) :
    (State.setRegsFrom k vs s).sp = s.sp := by
  obtain ⟨V, h⟩ := State.setRegsFrom_frame k vs s; rw [h]
@[simp] theorem State.setRegsFrom_DT (k : Nat) (vs : List Byte) (s : State) :
    (State.setRegsFrom k vs s).DT = s.DT := by
  obtain ⟨V, h⟩ := State.setRegsFrom_frame k vs s; rw [h]
@[simp] theorem State.setRegsFrom_ST (k : Nat) (vs : List Byte) (s : State) :
    (State.setRegsFrom k vs s).ST = s.ST := by
  obtain ⟨V, h⟩ := State.setRegsFrom_frame k vs s; rw [h]
@[simp] theorem State.setRegsFrom_fb (k : Nat) (vs : List Byte) (s : State) :
    (State.setRegsFrom k vs s).fb = s.fb := by
  obtain ⟨V, h⟩ := State.setRegsFrom_frame k vs s; rw [h]
@[simp] theorem State.setRegsFrom_key (k : Nat) (vs : List Byte) (s : State) :
    (State.setRegsFrom k vs s).key = s.key := by
  obtain ⟨V, h⟩ := State.setRegsFrom_frame k vs s; rw [h]
@[simp] theorem State.setRegsFrom_draw (k : Nat) (vs : List Byte) (s : State) :
    (State.setRegsFrom k vs s).draw = s.draw := by
  obtain ⟨V, h⟩ := State.setRegsFrom_frame k vs s; rw [h]
@[simp] theorem State.setRegsFrom_seed (k : Nat) (vs : List Byte) (s : State) :
    (State.setRegsFrom k vs s).seed = s.seed := by
  obtain ⟨V, h⟩ := State.setRegsFrom_frame k vs s; rw [h]

end Sys2Proof.Machine
end

