-- ==== Sys2Proof/Laws/Memory.lean ====
section
/-! SUPPORT. The laws of memory: read after write, the canonical form, and what the store and load
loops do (20_memory.md R64, R66, R70). -/

namespace Sys2Proof.Machine

@[simp] theorem Memory.read_nil (a : Nat) : Memory.read [] a = resetByte a := rfl

theorem Memory.read_listed (b : Nat) (w : Byte) (m : Memory) (a : Nat) :
    Memory.read ((b, w) :: m) a = if a = b then w else Memory.read m a := by
  unfold Memory.read
  by_cases h : a = b <;> simp [Memory.lookup, h]

/-- An address below every listed one reads as its reset contents. -/
theorem Memory.read_below {m : Memory} {a : Nat} (h : ∀ c ∈ m, a < c.1) : m.read a = resetByte a := by
  induction m with
  | nil => rfl
  | cons c m ih =>
    obtain ⟨b, w⟩ := c
    have hb : a < b := h (b, w) (by simp)
    rw [Memory.read_listed, if_neg (by omega), ih fun c hc => h c (by simp [hc])]

theorem Memory.read_cons {m : Memory} {a : Nat} (h : ∀ c ∈ m, a < c.1) (v : Byte) (a' : Nat) :
    Memory.read (Memory.cons a v m) a' = if a' = a then v else m.read a' := by
  unfold Memory.cons
  split
  · rename_i hv
    by_cases e : a' = a
    · subst e; simp [Memory.read_below h, hv]
    · simp [e]
  · exact Memory.read_listed a v m a'

theorem Memory.wf_tail {c : Host.Cell} {m : Memory} (h : Memory.wf (c :: m)) : m.wf :=
  ⟨(List.pairwise_cons.mp h.1).2, fun d hd => h.2 d (by simp [hd])⟩

theorem Memory.wf_head {c : Host.Cell} {m : Memory} (h : Memory.wf (c :: m)) : ∀ d ∈ m, c.1 < d.1 :=
  (List.pairwise_cons.mp h.1).1

/-- Reading after a write (R70): the written byte at its address, every other byte as before. -/
theorem Memory.read_write {m : Memory} (h : m.wf) (a : Nat) (v : Byte) (a' : Nat) :
    (m.write a v).read a' = if a' = a then v else m.read a' := by
  induction m with
  | nil => exact Memory.read_cons (by simp) v a'
  | cons c m ih =>
    obtain ⟨b, w⟩ := c
    have hd := Memory.wf_head h
    rw [Memory.write]
    split
    · refine Memory.read_cons (fun d hdm => ?_) v a'
      rcases List.mem_cons.mp hdm with rfl | hm
      · assumption
      · exact Nat.lt_trans ‹_› (hd d hm)
    · split
      · subst a
        rw [Memory.read_cons hd, Memory.read_listed]
        split <;> rfl
      · rw [Memory.read_listed, Memory.read_listed, ih (Memory.wf_tail h)]
        by_cases e : a' = b
        · subst e; simp [show ¬ a' = a by omega]
        · simp [e]

theorem Memory.wf_cons {m : Memory} (h : m.wf) {a : Nat} (ha : InRange a) (hl : ∀ c ∈ m, a < c.1)
    (v : Byte) : (Memory.cons a v m).wf := by
  unfold Memory.cons
  split
  · exact h
  · refine ⟨List.pairwise_cons.mpr ⟨hl, h.1⟩, fun c hc => ?_⟩
    rcases List.mem_cons.mp hc with rfl | hm
    · exact ⟨ha, ‹_›⟩
    · exact h.2 c hm

theorem Memory.mem_cons {m : Memory} {a : Nat} {v : Byte} {c : Host.Cell} (h : c ∈ Memory.cons a v m) :
    c.1 = a ∨ c ∈ m := by
  unfold Memory.cons at h
  split at h
  · exact .inr h
  · exact (List.mem_cons.mp h).imp_left fun e => by rw [e]

/-- A cell of a written memory is the written one or an old one. -/
theorem Memory.mem_write {m : Memory} {a : Nat} {v : Byte} {c : Host.Cell} (h : c ∈ m.write a v) :
    c.1 = a ∨ c ∈ m := by
  induction m with
  | nil => exact Memory.mem_cons h
  | cons d m ih =>
    obtain ⟨b, w⟩ := d
    rw [Memory.write] at h
    split at h
    · exact Memory.mem_cons h
    · split at h
      · exact (Memory.mem_cons h).imp_right (List.mem_cons_of_mem _)
      · rcases List.mem_cons.mp h with rfl | hm
        · simp
        · rcases ih hm with e | hm'
          · exact .inl e
          · exact .inr (by simp [hm'])

/-- A write in range keeps the canonical form. -/
theorem Memory.wf_write {m : Memory} (h : m.wf) {a : Nat} (ha : InRange a) (v : Byte) :
    (m.write a v).wf := by
  induction m with
  | nil => exact Memory.wf_cons h ha (by simp) v
  | cons c m ih =>
    obtain ⟨b, w⟩ := c
    have hd := Memory.wf_head h
    rw [Memory.write]
    split
    · refine Memory.wf_cons h ha (fun d hdm => ?_) v
      rcases List.mem_cons.mp hdm with rfl | hm
      · assumption
      · exact Nat.lt_trans ‹_› (hd d hm)
    · split
      · subst a
        exact Memory.wf_cons (Memory.wf_tail h) ha hd v
      · refine ⟨List.pairwise_cons.mpr ⟨fun d hdm => ?_, (ih (Memory.wf_tail h)).1⟩, fun d hdm => ?_⟩
        · rcases Memory.mem_write hdm with e | hm
          · simp only; omega
          · exact hd d hm
        · rcases List.mem_cons.mp hdm with rfl | hm
          · exact h.2 _ (by simp)
          · exact (ih (Memory.wf_tail h)).2 d hm

/-! ### Bytes at ascending addresses -/

/-- The loader's copy keeps the canonical form when it ends in range. -/
theorem Memory.wf_writeAll {m : Memory} (h : m.wf) {a : Nat} {vs : List Byte} (hl : a + vs.length ≤ 4096) :
    (m.writeAll a vs).wf := by
  induction vs generalizing m a with
  | nil => exact h
  | cons v vs ih =>
    simp only [List.length_cons] at hl
    exact ih (Memory.wf_write h (by unfold InRange; omega) v) (by omega)

/-- The loader's copy (R292): byte k lands at a + k, every other byte is as before. -/
theorem Memory.read_writeAll {m : Memory} (h : m.wf) {a : Nat} {vs : List Byte}
    (hl : a + vs.length ≤ 4096) (b : Nat) :
    (m.writeAll a vs).read b = if a ≤ b then (vs[b - a]?).getD (m.read b) else m.read b := by
  induction vs generalizing m a with
  | nil => simp [Memory.writeAll]
  | cons v vs ih =>
    simp only [List.length_cons] at hl
    rw [Memory.writeAll, ih (Memory.wf_write h (by unfold InRange; omega) v) (by omega), Memory.read_write h]
    rcases Nat.lt_trichotomy b a with hlt | rfl | hgt
    · simp [show ¬ a + 1 ≤ b by omega, show ¬ a ≤ b by omega, show ¬ b = a by omega]
    · simp
    · rw [if_pos (show a + 1 ≤ b by omega), if_pos (show a ≤ b by omega), if_neg (show ¬ b = a by omega),
        show b - a = (b - (a + 1)) + 1 by omega, List.getElem?_cons_succ]

/-- The store loop writes the in-range prefix of the bytes and reports whether any was cut (R66). -/
theorem storeBytes_eq (m : Memory) (a : Nat) (vs : List Byte) :
    storeBytes m a vs = (m.writeAll a (vs.take (4096 - a)), decide (vs ≠ [] ∧ 4096 < a + vs.length)) := by
  induction vs generalizing m a with
  | nil => simp [storeBytes, Memory.writeAll]
  | cons v vs ih =>
    rw [storeBytes]
    unfold InRange
    split
    · rw [ih, show 4096 - a = (4096 - (a + 1)) + 1 by omega, List.take_succ_cons, Memory.writeAll]
      congr 1
      rcases vs with _ | ⟨w, vs⟩
      · simp; omega
      · simp; omega
    · simp [show 4096 - a = 0 by omega, Memory.writeAll]; omega

/-- What the store loop leaves in memory (R66, R196). -/
theorem read_storeBytes {m : Memory} (h : m.wf) (a : Nat) (vs : List Byte) (b : Nat) :
    (storeBytes m a vs).1.read b =
      if a ≤ b ∧ b ≤ 4095 then (vs[b - a]?).getD (m.read b) else m.read b := by
  rw [storeBytes_eq]
  dsimp only
  by_cases ha : a ≤ 4096
  · rw [Memory.read_writeAll h (by rw [List.length_take]; omega)]
    by_cases hb : a ≤ b
    · by_cases hb' : b ≤ 4095
      · simp [hb, hb', show b - a < 4096 - a by omega]
      · simp [hb, hb', show ¬ b - a < 4096 - a by omega]
    · simp [hb]
  · simp only [show 4096 - a = 0 by omega, List.take_zero, Memory.writeAll]
    rw [if_neg (by omega)]

/-- The store loop keeps the canonical form. -/
theorem wf_storeBytes {m : Memory} (h : m.wf) (a : Nat) (vs : List Byte) : (storeBytes m a vs).1.wf := by
  rw [storeBytes_eq]
  by_cases ha : a ≤ 4096
  · exact Memory.wf_writeAll h (by rw [List.length_take]; omega)
  · simp only [show 4096 - a = 0 by omega, List.take_zero, Memory.writeAll]
    exact h

/-- The store loop reports a violation exactly when some byte has no address (R264). -/
theorem storeBytes_violated (m : Memory) (a : Nat) (vs : List Byte) :
    (storeBytes m a vs).2 = decide (vs ≠ [] ∧ 4096 < a + vs.length) := by
  rw [storeBytes_eq]

/-- The load loop reads the in-range prefix (R66). -/
theorem loadBytes_fst (m : Memory) (a n : Nat) :
    (loadBytes m a n).1 = (List.range (min n (4096 - a))).map fun k => m.read (a + k) := by
  induction n generalizing a with
  | zero => simp [loadBytes]
  | succ n ih =>
    rw [loadBytes]
    unfold InRange
    split
    · rw [show min (n + 1) (4096 - a) = min n (4096 - (a + 1)) + 1 by omega, List.range_succ_eq_map,
        List.map_cons, List.map_map]
      simp only [ih, Nat.add_zero, List.cons.injEq, true_and]
      apply List.map_congr_left
      intro k _
      simp only [Function.comp_apply]
      congr 1; omega
    · simp [show 4096 - a = 0 by omega]

/-- The load loop reports a violation exactly when some byte has no address (R264). -/
theorem loadBytes_snd (m : Memory) (a n : Nat) :
    (loadBytes m a n).2 = decide (n ≠ 0 ∧ 4096 < a + n) := by
  induction n generalizing a with
  | zero => simp [loadBytes]
  | succ n ih =>
    rw [loadBytes]
    unfold InRange
    split
    · simp only [ih]
      rcases n with _ | n
      · simp; omega
      · simp; omega
    · simp; omega

/-- The k-th loaded byte is the one at a + k, and there is one exactly when that address is in range
and k is below the count. -/
theorem loadBytes_getElem? (m : Memory) (a n k : Nat) :
    (loadBytes m a n).1[k]? = if k < n ∧ a + k ≤ 4095 then some (m.read (a + k)) else none := by
  rw [loadBytes_fst, List.getElem?_map]
  by_cases h : k < min n (4096 - a)
  · rw [List.getElem?_range h, if_pos (by omega)]; rfl
  · rw [List.getElem?_eq_none (by rw [List.length_range]; omega), if_neg (by omega)]; rfl

theorem loadBytes_length_le (m : Memory) (a n : Nat) : (loadBytes m a n).1.length ≤ n := by
  rw [loadBytes_fst]; simp

/-- The memory of a reset machine is in canonical form. -/
theorem Memory.wf_reset (seedIn : Seed) : (State.resetWith seedIn).mem.wf := ⟨.nil, by simp [State.resetWith]⟩

end Sys2Proof.Machine
end

