-- ==== Sys2Proof/Laws/Display.lean ====
section
/-! SUPPORT. What drawing a sprite does to the framebuffer (44_display.md R211, R212). -/

namespace Sys2Proof.Machine

@[simp] theorem Framebuffer.cell_blank (y : Fin 32) (x : Fin 64) : Framebuffer.blank.cell y x = false := by
  simp [Framebuffer.cell, Framebuffer.blank]

/-- Equal framebuffers are those with equal cells. -/
theorem Framebuffer.ext_cell {f g : Framebuffer} (h : ∀ y x, Framebuffer.cell f y x = Framebuffer.cell g y x) :
    f = g := by
  apply Vector.ext
  intro i hi
  apply BitVec.eq_of_getLsbD_eq
  intro j hj
  exact h ⟨i, hi⟩ ⟨j, hj⟩

/-- A toggle flips its cell and no other. -/
theorem Framebuffer.cell_toggle (fb : Framebuffer) (y y' : Fin 32) (x x' : Fin 64) :
    Framebuffer.cell (fb.toggle y x) y' x' =
      (Framebuffer.cell fb y' x' ^^ decide (y' = y ∧ x' = x)) := by
  unfold Framebuffer.cell Framebuffer.toggle
  by_cases hy : y' = y
  · subst hy
    by_cases hx : x' = x
    · subst hx; simp
    · have : x'.val ≠ x.val := fun e => hx (Fin.ext e)
      simp [hx, this]
  · have : y.val ≠ y'.val := fun e => hy (Fin.ext e.symm)
    simp [hy, this]

/-! A sprite is drawn as a list of pixels: the cells to toggle, in order. -/

/-- The cells one sprite row toggles. -/
def rowPixels (px : Byte) (y : Fin 32) (b : Byte) : List (Fin 32 × Fin 64) :=
  ((List.range 8).filter fun k => b.getLsbD (7 - k)).map fun k => (y, spriteCol px k)

/-- The cells the sprite rows from `r` on toggle. -/
def spritePixels (px py : Byte) : Nat → List Byte → List (Fin 32 × Fin 64)
  | _, [] => []
  | r, b :: bs => rowPixels px (spriteRow py r) b ++ spritePixels px py (r + 1) bs

/-- Toggling the cells of a list, noting collisions. -/
def togglePixels (ps : List (Fin 32 × Fin 64)) (c : Canvas) : Canvas :=
  ps.foldl (fun acc p => drawPixel p.1 p.2 true acc) c

theorem drawRow_eq (px : Byte) (y : Fin 32) (b : Byte) (c : Canvas) :
    drawRow px y b c = togglePixels (rowPixels px y b) c := by
  unfold drawRow togglePixels rowPixels
  induction List.range 8 generalizing c with
  | nil => rfl
  | cons k ks ih =>
    rw [List.foldl_cons, ih, List.filter_cons]
    by_cases h : b.getLsbD (7 - k) <;> simp [h, drawPixel]

theorem drawRows_eq (px py : Byte) (r : Nat) (bs : List Byte) (c : Canvas) :
    drawRows px py r bs c = togglePixels (spritePixels px py r bs) c := by
  induction bs generalizing r c with
  | nil => rfl
  | cons b bs ih =>
    rw [drawRows, ih, drawRow_eq, spritePixels]
    unfold togglePixels
    rw [List.foldl_append]

/-- Toggling distinct cells flips exactly those, and collides when one of them was on (R212). -/
theorem togglePixels_spec {ps : List (Fin 32 × Fin 64)} (h : ps.Nodup) (fb : Framebuffer) (hit : Bool) :
    (∀ y x, Framebuffer.cell (togglePixels ps (fb, hit)).1 y x =
      (Framebuffer.cell fb y x ^^ decide ((y, x) ∈ ps))) ∧
    (togglePixels ps (fb, hit)).2 = (hit || decide (∃ p ∈ ps, Framebuffer.cell fb p.1 p.2 = true)) := by
  induction ps generalizing fb hit with
  | nil => simp [togglePixels]
  | cons p ps ih =>
    obtain ⟨hp, hps⟩ := List.nodup_cons.mp h
    have step : togglePixels (p :: ps) (fb, hit) =
        togglePixels ps (Framebuffer.toggle fb p.1 p.2, hit || Framebuffer.cell fb p.1 p.2) := by
      simp [togglePixels, drawPixel]
    obtain ⟨h1, h2⟩ := ih hps (Framebuffer.toggle fb p.1 p.2) (hit || Framebuffer.cell fb p.1 p.2)
    rw [step]
    refine ⟨fun y x => ?_, ?_⟩
    · rw [h1, Framebuffer.cell_toggle, Bool.xor_assoc]
      congr 1
      by_cases e : (y, x) = p
      · subst e; simp [hp]
      · have : ¬ (y = p.1 ∧ x = p.2) := fun ⟨a, b⟩ => e (by rw [a, b])
        simp [this, e]
    · rw [h2, Bool.or_assoc]
      congr 1
      rw [Bool.eq_iff_iff]
      simp only [Bool.or_eq_true, decide_eq_true_eq, List.mem_cons]
      constructor
      · rintro (hc | ⟨q, hq, hc⟩)
        · exact ⟨p, .inl rfl, hc⟩
        · refine ⟨q, .inr hq, ?_⟩
          have hne : ¬ (q.1 = p.1 ∧ q.2 = p.2) := fun ⟨a, b⟩ => hp (by
            rwa [show q = p from Prod.ext a b] at hq)
          simpa [Framebuffer.cell_toggle, hne] using hc
      · rintro ⟨q, rfl | hq, hc⟩
        · exact .inl hc
        · refine .inr ⟨q, hq, ?_⟩
          have hne : ¬ (q.1 = p.1 ∧ q.2 = p.2) := fun ⟨a, b⟩ => hp (by
            rwa [show q = p from Prod.ext a b] at hq)
          simpa [Framebuffer.cell_toggle, hne] using hc

theorem mem_rowPixels (px : Byte) (y : Fin 32) (b : Byte) (q : Fin 32 × Fin 64) :
    q ∈ rowPixels px y b ↔ ∃ c < 8, b.getLsbD (7 - c) = true ∧ q = (y, spriteCol px c) := by
  simp only [rowPixels, List.mem_map, List.mem_filter, List.mem_range]
  constructor
  · rintro ⟨c, ⟨hc, hb⟩, rfl⟩; exact ⟨c, hc, hb, rfl⟩
  · rintro ⟨c, hc, hb, rfl⟩; exact ⟨c, ⟨hc, hb⟩, rfl⟩

theorem mem_spritePixels (px py : Byte) (r : Nat) (bs : List Byte) (q : Fin 32 × Fin 64) :
    q ∈ spritePixels px py r bs ↔ ∃ k, ∃ b, bs[k]? = some b ∧ ∃ c < 8, b.getLsbD (7 - c) = true ∧
      q = (spriteRow py (r + k), spriteCol px c) := by
  induction bs generalizing r with
  | nil => simp [spritePixels]
  | cons b bs ih =>
    rw [spritePixels, List.mem_append, mem_rowPixels, ih]
    constructor
    · rintro (h | ⟨k, b', hk, h⟩)
      · exact ⟨0, b, rfl, by simpa using h⟩
      · exact ⟨k + 1, b', by simpa using hk, by rwa [show r + (k + 1) = r + 1 + k by omega]⟩
    · rintro ⟨k, b', hk, h⟩
      rcases k with _ | k
      · rw [List.getElem?_cons_zero, Option.some.injEq] at hk
        subst hk
        exact .inl (by simpa using h)
      · exact .inr ⟨k, b', by simpa using hk, by rwa [show r + 1 + k = r + (k + 1) by omega]⟩

theorem spriteCol_inj {px : Byte} {c d : Nat} (hc : c < 8) (hd : d < 8) (h : spriteCol px c = spriteCol px d) :
    c = d := by
  have := congrArg Fin.val h
  simp only [spriteCol, Fin.val_ofNat] at this
  omega

theorem spriteRow_inj {py : Byte} {k l : Nat} (h : spriteRow py k = spriteRow py l) (hk : k < l + 32)
    (hl : l < k + 32) : k = l := by
  have := congrArg Fin.val h
  simp only [spriteRow, Fin.val_ofNat] at this
  omega

/-- No two pixels of one sprite fall on the same cell (R211): a row is 8 < 64 wide and there are
fewer than 32 rows. -/
theorem spritePixels_nodup (px py : Byte) (r : Nat) (bs : List Byte) (h : bs.length < 32) :
    (spritePixels px py r bs).Nodup := by
  induction bs generalizing r with
  | nil => exact .nil
  | cons b bs ih =>
    simp only [List.length_cons] at h
    rw [spritePixels, List.nodup_append]
    refine ⟨?_, ih (r + 1) (by omega), ?_⟩
    · unfold rowPixels
      refine List.Nodup.map_on (fun c hc d hd e => ?_) (List.nodup_range.filter _)
      simp only [List.mem_filter, List.mem_range] at hc hd
      exact spriteCol_inj hc.1 hd.1 (Prod.ext_iff.mp e).2
    · intro p hp q hq e
      obtain ⟨c, -, -, rfl⟩ := (mem_rowPixels _ _ _ _).mp hp
      obtain ⟨k, b', hk, d, -, -, rfl⟩ := (mem_spritePixels _ _ _ _ _).mp hq
      have hk' : k < bs.length := by
        by_contra hc
        rw [List.getElem?_eq_none (by omega)] at hk
        exact absurd hk (by simp)
      have := spriteRow_inj (Prod.ext_iff.mp e).1 (by omega) (by omega)
      omega

/-- The pixels of a DRW's in-range rows are those `spritePixel` names (R211). -/
theorem mem_spritePixels_loaded (m : Memory) (base n : Nat) (px py : Byte) (y : Fin 32) (x : Fin 64) :
    (y, x) ∈ spritePixels px py 0 (loadBytes m base n).1 ↔ spritePixel m base px py n y x := by
  rw [mem_spritePixels]
  simp only [spritePixel, loadBytes_getElem?]
  constructor
  · rintro ⟨k, b, hk, c, hc, hb, hq⟩
    obtain ⟨⟨hkn, hr⟩, rfl⟩ : (k < n ∧ base + k ≤ 4095) ∧ m.read (base + k) = b := by
      split at hk
      · exact ⟨‹_›, Option.some.inj hk⟩
      · exact absurd hk (by simp)
    obtain ⟨h1, h2⟩ := Prod.ext_iff.mp hq
    simp only at h1 h2
    exact ⟨k, hkn, hr, c, hc, hb, by rw [h1]; simp [spriteRow], by rw [h2]; simp [spriteCol]⟩
  · rintro ⟨k, hkn, hr, c, hc, hb, h1, h2⟩
    exact ⟨k, _, if_pos ⟨hkn, hr⟩, c, hc, hb, by
      refine Prod.ext (Fin.ext ?_) (Fin.ext ?_)
      · simpa [spriteRow] using h1
      · simpa [spriteCol] using h2⟩

open Classical in
/-- What DRW does to the framebuffer: exactly the sprite's pixels are flipped, and a collision is
noted when one of them was on (R211, R212). -/
theorem spriteCanvas_spec (x y n : Nibble) (s : State) :
    (∀ r c, Framebuffer.cell (spriteCanvas x y n s).1 r c = (Framebuffer.cell s.fb r c ^^
      decide (spritePixel s.mem s.I.toNat (s.reg x) (s.reg y) n.toNat r c))) ∧
    ((spriteCanvas x y n s).2 = true ↔ ∃ r c, Framebuffer.cell s.fb r c = true ∧
      spritePixel s.mem s.I.toNat (s.reg x) (s.reg y) n.toNat r c) := by
  have hlen : (loadBytes s.mem s.I.toNat n.toNat).1.length < 32 :=
    Nat.lt_of_le_of_lt (loadBytes_length_le _ _ _) (by have := n.isLt; omega)
  obtain ⟨h1, h2⟩ := togglePixels_spec (spritePixels_nodup (s.reg x) (s.reg y) 0 _ hlen) s.fb false
  unfold spriteCanvas spriteBytes
  rw [drawRows_eq]
  refine ⟨fun r c => ?_, ?_⟩
  · rw [h1]; congr 1
    simp only [mem_spritePixels_loaded]
  · rw [h2, Bool.false_or, decide_eq_true_eq]
    constructor
    · rintro ⟨⟨r, c⟩, hp, hc⟩
      exact ⟨r, c, hc, (mem_spritePixels_loaded ..).mp hp⟩
    · rintro ⟨r, c, hc, hp⟩
      exact ⟨(r, c), (mem_spritePixels_loaded ..).mpr hp, hc⟩

end Sys2Proof.Machine
end

