-- ==== Sys2Proof/Laws/Encoding.lean ====
section
/-! SUPPORT. Words and their fields as numbers, and the fields of an encoded word, format by format
(30_encoding.md R91, R92). -/

namespace Sys2Proof

/-! ### Fields as numbers -/

theorem fieldOp_toNat (w : Word) : (fieldOp w).toNat = w.toNat / 4096 := by
  have := w.isLt
  simp only [fieldOp, BitVec.extractLsb'_toNat, Nat.shiftRight_eq_div_pow]; omega

theorem fieldX_toNat (w : Word) : (fieldX w).toNat = w.toNat / 256 % 16 := by
  simp only [fieldX, BitVec.extractLsb'_toNat, Nat.shiftRight_eq_div_pow]

theorem fieldY_toNat (w : Word) : (fieldY w).toNat = w.toNat / 16 % 16 := by
  simp only [fieldY, BitVec.extractLsb'_toNat, Nat.shiftRight_eq_div_pow]

theorem fieldN_toNat (w : Word) : (fieldN w).toNat = w.toNat % 16 := by
  simp [fieldN, BitVec.extractLsb'_toNat]

theorem fieldNN_toNat (w : Word) : (fieldNN w).toNat = w.toNat % 256 := by
  simp [fieldNN, BitVec.extractLsb'_toNat]

theorem fieldNNN_toNat (w : Word) : (fieldNNN w).toNat = w.toNat % 4096 := by
  simp [fieldNNN, BitVec.extractLsb'_toNat]

/-! ### Words as numbers -/

theorem append_toNat {m n : Nat} (a : BitVec m) (b : BitVec n) :
    (a ++ b).toNat = a.toNat * 2 ^ n + b.toNat := by
  rw [BitVec.toNat_append, ← Nat.shiftLeft_add_eq_or_of_lt b.isLt, Nat.shiftLeft_eq]

theorem wordNNN_toNat (op : Nibble) (nnn : Imm12) :
    (wordNNN op nnn).toNat = op.toNat * 4096 + nnn.toNat := append_toNat op nnn

theorem wordXNN_toNat (op x : Nibble) (nn : Byte) :
    (wordXNN op x nn).toNat = op.toNat * 4096 + x.toNat * 256 + nn.toNat := by
  have h : (wordXNN op x nn).toNat = (op ++ x).toNat * 256 + nn.toNat := append_toNat (op ++ x) nn
  rw [h, append_toNat]; omega

theorem wordXYN_toNat (op x y n : Nibble) :
    (wordXYN op x y n).toNat = op.toNat * 4096 + x.toNat * 256 + y.toNat * 16 + n.toNat := by
  have h : (wordXYN op x y n).toNat = (op ++ x ++ y).toNat * 16 + n.toNat := append_toNat (op ++ x ++ y) n
  rw [h, append_toNat, append_toNat]; omega

/-- A fetched word as a number: `hi * 256 + lo` (R63). -/
theorem wordOfBytes_toNat (hi lo : Byte) : (wordOfBytes hi lo).toNat = hi.toNat * 256 + lo.toNat :=
  append_toNat hi lo

/-! ### The fields of an encoded word -/

@[simp] theorem fieldOp_wordNNN (op : Nibble) (nnn : Imm12) : fieldOp (wordNNN op nnn) = op := by
  apply BitVec.eq_of_toNat_eq; rw [fieldOp_toNat, wordNNN_toNat]; omega

@[simp] theorem fieldNNN_wordNNN (op : Nibble) (nnn : Imm12) : fieldNNN (wordNNN op nnn) = nnn := by
  apply BitVec.eq_of_toNat_eq; rw [fieldNNN_toNat, wordNNN_toNat]; omega

@[simp] theorem fieldOp_wordXNN (op x : Nibble) (nn : Byte) : fieldOp (wordXNN op x nn) = op := by
  apply BitVec.eq_of_toNat_eq; rw [fieldOp_toNat, wordXNN_toNat]; omega

@[simp] theorem fieldX_wordXNN (op x : Nibble) (nn : Byte) : fieldX (wordXNN op x nn) = x := by
  apply BitVec.eq_of_toNat_eq; rw [fieldX_toNat, wordXNN_toNat]; omega

@[simp] theorem fieldNN_wordXNN (op x : Nibble) (nn : Byte) : fieldNN (wordXNN op x nn) = nn := by
  apply BitVec.eq_of_toNat_eq; rw [fieldNN_toNat, wordXNN_toNat]; omega

@[simp] theorem fieldOp_wordXYN (op x y n : Nibble) : fieldOp (wordXYN op x y n) = op := by
  apply BitVec.eq_of_toNat_eq; rw [fieldOp_toNat, wordXYN_toNat]; omega

@[simp] theorem fieldX_wordXYN (op x y n : Nibble) : fieldX (wordXYN op x y n) = x := by
  apply BitVec.eq_of_toNat_eq; rw [fieldX_toNat, wordXYN_toNat]; omega

@[simp] theorem fieldY_wordXYN (op x y n : Nibble) : fieldY (wordXYN op x y n) = y := by
  apply BitVec.eq_of_toNat_eq; rw [fieldY_toNat, wordXYN_toNat]; omega

@[simp] theorem fieldN_wordXYN (op x y n : Nibble) : fieldN (wordXYN op x y n) = n := by
  apply BitVec.eq_of_toNat_eq; rw [fieldN_toNat, wordXYN_toNat]; omega

/-! ### A word from its fields -/

/-- A word is its family and its `nnn`. -/
theorem word_eq_wordNNN (w : Word) : wordNNN (fieldOp w) (fieldNNN w) = w := by
  apply BitVec.eq_of_toNat_eq; rw [wordNNN_toNat, fieldOp_toNat, fieldNNN_toNat]; omega

/-- A word is its family, `x` and `nn`. -/
theorem word_eq_wordXNN (w : Word) : wordXNN (fieldOp w) (fieldX w) (fieldNN w) = w := by
  apply BitVec.eq_of_toNat_eq; rw [wordXNN_toNat, fieldOp_toNat, fieldX_toNat, fieldNN_toNat]; omega

/-- A word is its four nibbles. -/
theorem word_eq_wordXYN (w : Word) : wordXYN (fieldOp w) (fieldX w) (fieldY w) (fieldN w) = w := by
  apply BitVec.eq_of_toNat_eq
  rw [wordXYN_toNat, fieldOp_toNat, fieldX_toNat, fieldY_toNat, fieldN_toNat]; omega

/-- The two bytes of a word, put together again, are the word (R63). -/
theorem wordOfBytes_bytes (w : Word) : wordOfBytes (w.extractLsb' 8 8) (w.extractLsb' 0 8) = w := by
  have := w.isLt
  apply BitVec.eq_of_toNat_eq
  rw [wordOfBytes_toNat, BitVec.extractLsb'_toNat, BitVec.extractLsb'_toNat]
  simp only [Nat.shiftRight_eq_div_pow]; omega

@[simp] theorem tableWord_toNat (w : Word) : tableWord 16 w.toNat = w := by
  unfold tableWord
  rw [Nat.mod_eq_of_lt w.isLt]; simp

/-! ### The masks of the opcode map (R95)

A mask keeps whole nibbles, so masking an encoded word keeps whole fields. -/

theorem wordXYN_and (a x y n b x' y' n' : Nibble) :
    wordXYN a x y n &&& wordXYN b x' y' n' = wordXYN (a &&& b) (x &&& x') (y &&& y') (n &&& n') := by
  have h1 : wordXYN a x y n &&& wordXYN b x' y' n' = (a ++ x ++ y &&& b ++ x' ++ y') ++ (n &&& n') :=
    BitVec.and_append
  rw [h1, BitVec.and_append, BitVec.and_append]; rfl

theorem nibble_and_ones (n : Nibble) : n &&& 0xF#4 = n := BitVec.and_allOnes

/-- Masking the family nibble only. -/
theorem mask_F000 (w : Word) : w &&& 0xF000#16 = wordXYN (fieldOp w) 0#4 0#4 0#4 := by
  conv_lhs => rw [← word_eq_wordXYN w, show 0xF000#16 = wordXYN 0xF#4 0#4 0#4 0#4 by decide]
  rw [wordXYN_and]; simp only [nibble_and_ones, BitVec.and_zero]

/-- Masking the family and the low nibble. -/
theorem mask_F00F (w : Word) : w &&& 0xF00F#16 = wordXYN (fieldOp w) 0#4 0#4 (fieldN w) := by
  conv_lhs => rw [← word_eq_wordXYN w, show 0xF00F#16 = wordXYN 0xF#4 0#4 0#4 0xF#4 by decide]
  rw [wordXYN_and]; simp only [nibble_and_ones, BitVec.and_zero]

theorem wordXNN_and (a x b x' : Nibble) (nn nn' : Byte) :
    wordXNN a x nn &&& wordXNN b x' nn' = wordXNN (a &&& b) (x &&& x') (nn &&& nn') := by
  have h1 : wordXNN a x nn &&& wordXNN b x' nn' = (a ++ x &&& b ++ x') ++ (nn &&& nn') := BitVec.and_append
  rw [h1, BitVec.and_append]; rfl

theorem byte_and_ones (v : Byte) : v &&& 0xFF#8 = v := BitVec.and_allOnes

/-- Masking the family and the low byte. -/
theorem mask_F0FF (w : Word) : w &&& 0xF0FF#16 = wordXNN (fieldOp w) 0#4 (fieldNN w) := by
  conv_lhs => rw [← word_eq_wordXNN w, show 0xF0FF#16 = wordXNN 0xF#4 0#4 0xFF#8 by decide]
  rw [wordXNN_and]; simp only [nibble_and_ones, byte_and_ones, BitVec.and_zero]

@[simp] theorem mask_FFFF (w : Word) : w &&& 0xFFFF#16 = w := BitVec.and_allOnes

end Sys2Proof
end

