-- ==== Sys2Proof/Laws/Effect.lean ====
section
/-! SUPPORT. What a step can do, said once: `exec` answers its effect's state, fetch reads two bytes in
range, a step is one of three cases (40_step_cycle.md R120), and what the parameters change (R4). -/

namespace Sys2Proof.Machine

/-- `exec` always answers a next state, the one of `effect` (R7). -/
theorem exec_eq (i : Instr) (s : State) : exec i s = .next (effect i s).state := by
  cases i <;> rfl

theorem exec_next_iff (i : Instr) (s t : State) : exec i s = .next t ↔ t = (effect i s).state := by
  rw [exec_eq]
  exact ⟨fun h => (Host.Outcome.next.inj h).symm, fun h => by rw [h]⟩

theorem fetch_in_range {s : State} (h : s.pc.toNat ≤ 4094) :
    s.fetch = some (wordOfBytes (s.mem.read s.pc.toNat) (s.mem.read (s.pc.toNat + 1))) := by
  unfold State.fetch InRange
  exact if_pos ⟨by omega, by omega⟩

theorem fetch_out_of_range {s : State} (h : 4094 < s.pc.toNat) : s.fetch = none := by
  unfold State.fetch InRange
  exact if_neg (by omega)

/-- The word fetched from a `pc` in range. -/
def fetchedWord (s : State) : Word := wordOfBytes (s.mem.read s.pc.toNat) (s.mem.read (s.pc.toNat + 1))

/-- A step from out of range faults (R67). -/
theorem step_out_of_range {s : State} (h : 4094 < s.pc.toNat) : step s = .fault .fetchOutOfBounds := by
  unfold step; rw [fetch_out_of_range h]

/-- A step in range runs the decoded instruction (R120). -/
theorem step_decoded {s : State} (h : s.pc.toNat ≤ 4094) {i : Instr} (hd : decodeWord (fetchedWord s) = some i) :
    step s = exec i s := by
  unfold step; rw [fetch_in_range h]; unfold fetchedWord at hd; simp only [hd]

/-- A step in range on a word that is no instruction is the reported no-op (R126). -/
theorem step_unrecognized {s : State} (h : s.pc.toNat ≤ 4094) (hd : decodeWord (fetchedWord s) = none) :
    step s = .next s.advance := by
  unfold step; rw [fetch_in_range h]; unfold fetchedWord at hd; simp only [hd]; rfl

/-- Everything a step that answers a next state can have done. -/
theorem step_cases {s t : State} (h : step s = .next t) :
    s.pc.toNat ≤ 4094 ∧ ((∃ i, decodeWord (fetchedWord s) = some i ∧ t = (effect i s).state) ∨
      (decodeWord (fetchedWord s) = none ∧ t = s.advance)) := by
  rcases Nat.lt_or_ge 4094 s.pc.toNat with ho | hi
  · rw [step_out_of_range ho] at h; cases h
  · refine ⟨hi, ?_⟩
    cases hd : decodeWord (fetchedWord s) with
    | some i => rw [step_decoded hi hd] at h; exact .inl ⟨i, rfl, (exec_next_iff i s t).mp h⟩
    | none => rw [step_unrecognized hi hd] at h; exact .inr ⟨rfl, (Host.Outcome.next.inj h).symm⟩

/-! ### Under any parameters (R4) -/

theorem execUnder_eq (cfg : Config) (i : Instr) (s : State) :
    execUnder cfg i s = .next (effectUnder cfg i s).state := rfl

/-- `exec` is every instruction under the default parameters. -/
theorem execUnder_params (i : Instr) (s : State) : execUnder params i s = exec i s := (exec_eq i s).symm

theorem cycle_out_of_range (cfg : Config) {s : State} (h : 4094 < s.pc.toNat) : s.cycle cfg = none := by
  unfold State.cycle; rw [fetch_out_of_range h]; rfl

theorem cycle_decoded (cfg : Config) {s : State} (h : s.pc.toNat ≤ 4094) {i : Instr}
    (hd : decodeWord (fetchedWord s) = some i) : s.cycle cfg = some (effectUnder cfg i s) := by
  unfold State.cycle; rw [fetch_in_range h]; unfold fetchedWord at hd; simp only [Option.map_some, hd]

theorem cycle_unrecognized (cfg : Config) {s : State} (h : s.pc.toNat ≤ 4094)
    (hd : decodeWord (fetchedWord s) = none) : s.cycle cfg = some (runUnrecognized s) := by
  unfold State.cycle; rw [fetch_in_range h]; unfold fetchedWord at hd; simp only [Option.map_some, hd]

/-- `step` is the step under the default parameters. -/
theorem stepUnder_params (s : State) : stepUnder params s = step s := by
  unfold stepUnder
  rcases Nat.lt_or_ge 4094 s.pc.toNat with ho | hi
  · rw [cycle_out_of_range params ho, step_out_of_range ho]
  · cases hd : decodeWord (fetchedWord s) with
    | some i => rw [cycle_decoded params hi hd, step_decoded hi hd]; exact execUnder_params i s
    | none => rw [cycle_unrecognized params hi hd, step_unrecognized hi hd]; rfl

@[simp] theorem operate_step (s : State) : s.operate .step = step s := stepUnder_params s

/-- Everything a step that answers a next state can have done, under any parameters. -/
theorem stepUnder_cases {cfg : Config} {s t : State} (h : stepUnder cfg s = .next t) :
    s.pc.toNat ≤ 4094 ∧ ((∃ i, decodeWord (fetchedWord s) = some i ∧ t = (effectUnder cfg i s).state) ∨
      (decodeWord (fetchedWord s) = none ∧ t = s.advance)) := by
  unfold stepUnder at h
  rcases Nat.lt_or_ge 4094 s.pc.toNat with ho | hi
  · rw [cycle_out_of_range cfg ho] at h; cases h
  · refine ⟨hi, ?_⟩
    cases hd : decodeWord (fetchedWord s) with
    | some i => rw [cycle_decoded cfg hi hd] at h; exact .inl ⟨i, rfl, (Host.Outcome.next.inj h).symm⟩
    | none => rw [cycle_unrecognized cfg hi hd] at h; exact .inr ⟨rfl, (Host.Outcome.next.inj h).symm⟩

/-- The report of a step on a decoded word (R124). -/
theorem stepReport_decoded {s : State} (h : s.pc.toNat ≤ 4094) {i : Instr}
    (hd : decodeWord (fetchedWord s) = some i) : stepReport s = some (report i s) := by
  unfold stepReport stepReportUnder; rw [cycle_decoded params h hd]; rfl

/-- The report of a step on a word that is no instruction (R126). -/
theorem stepReport_unrecognized {s : State} (h : s.pc.toNat ≤ 4094) (hd : decodeWord (fetchedWord s) = none) :
    stepReport s = some ⟨false, .unimplementedOpcode⟩ := by
  unfold stepReport stepReportUnder; rw [cycle_unrecognized params h hd]; rfl

/-! ### Reset under any FONT (R290) -/

theorem wf_resetUnder (cfg : Config) (seedIn : Seed) : (State.resetUnder cfg seedIn).mem.wf :=
  Memory.wf_writeAll (Memory.wf_reset seedIn) (by rw [Vector.length_toList]; omega)

/-- Memory after reset: the font at 0..79, zero elsewhere. -/
theorem read_resetUnder (cfg : Config) (seedIn : Seed) (a : Nat) :
    (State.resetUnder cfg seedIn).mem.read a = if h : a < 80 then cfg.font[a] else 0#8 := by
  refine (Memory.read_writeAll (Memory.wf_reset seedIn) (by rw [Vector.length_toList]; omega) a).trans ?_
  rw [if_pos (Nat.zero_le a), Nat.sub_zero]
  by_cases h : a < 80
  · rw [dif_pos h, List.getElem?_eq_getElem (by rw [Vector.length_toList]; exact h)]; simp
  · rw [dif_neg h, List.getElem?_eq_none (by rw [Vector.length_toList]; omega)]
    simp [State.resetWith, resetByte, h]

/-- `State.resetWith` is reset under the default parameters. -/
theorem resetUnder_params (seedIn : Seed) : State.resetUnder params seedIn = State.resetWith seedIn := by
  have h : Memory.writeAll [] 0 params.font.toList = [] := by decide
  unfold State.resetUnder; rw [h]; rfl

/-! ### Keys (R232) -/

theorem anyPressed_iff (s : State) : s.anyPressed = true ↔ ∃ k, s.pressed k = true := by
  unfold State.anyPressed State.pressed
  simp only [List.any_eq_true, id]
  constructor
  · rintro ⟨b, hb, rfl⟩
    obtain ⟨i, hi, he⟩ := List.getElem_of_mem hb
    have hi' : i < 16 := by simpa using hi
    refine ⟨BitVec.ofNat 4 i, ?_⟩
    simpa [Nat.mod_eq_of_lt hi'] using he
  · rintro ⟨k, hk⟩
    exact ⟨_, by rw [← hk]; simp [Vector.mem_toList_iff], rfl⟩

/-- The default choice is a pressed key, and the lowest (D22). -/
theorem lowestPressed_spec {s : State} (h : s.anyPressed = true) :
    s.pressed (lowestPressed s.key) = true ∧ ∀ j, s.pressed j = true → (lowestPressed s.key).toNat ≤ j.toNat := by
  obtain ⟨k, hk⟩ := (anyPressed_iff s).mp h
  unfold State.pressed at hk ⊢
  have hlt : s.key.toList.findIdx id < 16 := by
    have := List.findIdx_lt_length_of_exists (xs := s.key.toList) (p := id)
      ⟨_, by rw [Vector.mem_toList_iff]; exact Vector.getElem_mem k.isLt, hk⟩
    simpa using this
  have hn : (lowestPressed s.key).toNat = s.key.toList.findIdx id := by
    simp [lowestPressed, Nat.mod_eq_of_lt hlt]
  refine ⟨?_, fun j hj => ?_⟩
  · have := List.findIdx_getElem (p := id) (xs := s.key.toList) (w := by simpa using hlt)
    simpa [hn] using this
  · rw [hn]
    by_contra hc
    have := List.not_of_lt_findIdx (p := id) (xs := s.key.toList) (i := j.toNat) (by omega)
    simp at this
    rw [hj] at this
    exact absurd this (by simp)

theorem params_picksPressed : params.PicksPressed := by
  rintro key ⟨k, hk⟩
  exact (lowestPressed_spec (s := { State.reset with key := key }) ((anyPressed_iff _).mpr ⟨k, hk⟩)).1

end Sys2Proof.Machine
end

