-- ==== Sys2Proof/Laws/PerInstr.lean ====
section
/-! SUPPORT. The family OpcodeRow: an instruction's word is selected by its own row of the opcode map,
and that row builds the instruction back from the word's fields (30_encoding.md R95). -/

namespace Sys2Proof.Laws.OpcodeRow

/-- Some row of the opcode map selects the instruction's word and builds the instruction from it. -/
def Statement (i : Instr) : Prop :=
  ∃ r ∈ opcodeTable, r.selects (encode i) = true ∧ r.build (encode i) = i

theorem cls : Statement (.cls) :=
  ⟨_, List.mem_of_getElem? (i := 0) rfl, by decide, rfl⟩
theorem ret : Statement (.ret) :=
  ⟨_, List.mem_of_getElem? (i := 1) rfl, by decide, rfl⟩
theorem sys (nnn : Imm12) : Statement (.sys nnn) := by
  refine ⟨_, List.mem_of_getElem? (i := 2) rfl, ?_, by simp [encode]⟩
  rw [OpcodeRow.selects, mask_F000]; simp [encode]; decide
theorem jp (nnn : Imm12) : Statement (.jp nnn) := by
  refine ⟨_, List.mem_of_getElem? (i := 3) rfl, ?_, by simp [encode]⟩
  rw [OpcodeRow.selects, mask_F000]; simp [encode]; decide
theorem call (nnn : Imm12) : Statement (.call nnn) := by
  refine ⟨_, List.mem_of_getElem? (i := 4) rfl, ?_, by simp [encode]⟩
  rw [OpcodeRow.selects, mask_F000]; simp [encode]; decide
theorem seImm (x : Nibble) (nn : Byte) : Statement (.seImm x nn) := by
  refine ⟨_, List.mem_of_getElem? (i := 5) rfl, ?_, by simp [encode]⟩
  rw [OpcodeRow.selects, mask_F000]; simp [encode]; decide
theorem sneImm (x : Nibble) (nn : Byte) : Statement (.sneImm x nn) := by
  refine ⟨_, List.mem_of_getElem? (i := 6) rfl, ?_, by simp [encode]⟩
  rw [OpcodeRow.selects, mask_F000]; simp [encode]; decide
theorem seReg (x y : Nibble) : Statement (.seReg x y) := by
  refine ⟨_, List.mem_of_getElem? (i := 7) rfl, ?_, by simp [encode]⟩
  rw [OpcodeRow.selects, mask_F00F]; simp [encode]; decide
theorem ldImm (x : Nibble) (nn : Byte) : Statement (.ldImm x nn) := by
  refine ⟨_, List.mem_of_getElem? (i := 8) rfl, ?_, by simp [encode]⟩
  rw [OpcodeRow.selects, mask_F000]; simp [encode]; decide
theorem addImm (x : Nibble) (nn : Byte) : Statement (.addImm x nn) := by
  refine ⟨_, List.mem_of_getElem? (i := 9) rfl, ?_, by simp [encode]⟩
  rw [OpcodeRow.selects, mask_F000]; simp [encode]; decide
theorem ldReg (x y : Nibble) : Statement (.ldReg x y) := by
  refine ⟨_, List.mem_of_getElem? (i := 10) rfl, ?_, by simp [encode]⟩
  rw [OpcodeRow.selects, mask_F00F]; simp [encode]; decide
theorem orReg (x y : Nibble) : Statement (.orReg x y) := by
  refine ⟨_, List.mem_of_getElem? (i := 11) rfl, ?_, by simp [encode]⟩
  rw [OpcodeRow.selects, mask_F00F]; simp [encode]; decide
theorem andReg (x y : Nibble) : Statement (.andReg x y) := by
  refine ⟨_, List.mem_of_getElem? (i := 12) rfl, ?_, by simp [encode]⟩
  rw [OpcodeRow.selects, mask_F00F]; simp [encode]; decide
theorem xorReg (x y : Nibble) : Statement (.xorReg x y) := by
  refine ⟨_, List.mem_of_getElem? (i := 13) rfl, ?_, by simp [encode]⟩
  rw [OpcodeRow.selects, mask_F00F]; simp [encode]; decide
theorem addReg (x y : Nibble) : Statement (.addReg x y) := by
  refine ⟨_, List.mem_of_getElem? (i := 14) rfl, ?_, by simp [encode]⟩
  rw [OpcodeRow.selects, mask_F00F]; simp [encode]; decide
theorem sub (x y : Nibble) : Statement (.sub x y) := by
  refine ⟨_, List.mem_of_getElem? (i := 15) rfl, ?_, by simp [encode]⟩
  rw [OpcodeRow.selects, mask_F00F]; simp [encode]; decide
theorem shr (x y : Nibble) : Statement (.shr x y) := by
  refine ⟨_, List.mem_of_getElem? (i := 16) rfl, ?_, by simp [encode]⟩
  rw [OpcodeRow.selects, mask_F00F]; simp [encode]; decide
theorem subn (x y : Nibble) : Statement (.subn x y) := by
  refine ⟨_, List.mem_of_getElem? (i := 17) rfl, ?_, by simp [encode]⟩
  rw [OpcodeRow.selects, mask_F00F]; simp [encode]; decide
theorem shl (x y : Nibble) : Statement (.shl x y) := by
  refine ⟨_, List.mem_of_getElem? (i := 18) rfl, ?_, by simp [encode]⟩
  rw [OpcodeRow.selects, mask_F00F]; simp [encode]; decide
theorem sneReg (x y : Nibble) : Statement (.sneReg x y) := by
  refine ⟨_, List.mem_of_getElem? (i := 19) rfl, ?_, by simp [encode]⟩
  rw [OpcodeRow.selects, mask_F00F]; simp [encode]; decide
theorem ldI (nnn : Imm12) : Statement (.ldI nnn) := by
  refine ⟨_, List.mem_of_getElem? (i := 20) rfl, ?_, by simp [encode]⟩
  rw [OpcodeRow.selects, mask_F000]; simp [encode]; decide
theorem jpV0 (nnn : Imm12) : Statement (.jpV0 nnn) := by
  refine ⟨_, List.mem_of_getElem? (i := 21) rfl, ?_, by simp [encode]⟩
  rw [OpcodeRow.selects, mask_F000]; simp [encode]; decide
theorem rnd (x : Nibble) (nn : Byte) : Statement (.rnd x nn) := by
  refine ⟨_, List.mem_of_getElem? (i := 22) rfl, ?_, by simp [encode]⟩
  rw [OpcodeRow.selects, mask_F000]; simp [encode]; decide
theorem drw (x y n : Nibble) : Statement (.drw x y n) := by
  refine ⟨_, List.mem_of_getElem? (i := 23) rfl, ?_, by simp [encode]⟩
  rw [OpcodeRow.selects, mask_F000]; simp [encode]; decide
theorem skp (x : Nibble) : Statement (.skp x) := by
  refine ⟨_, List.mem_of_getElem? (i := 24) rfl, ?_, by simp [encode]⟩
  rw [OpcodeRow.selects, mask_F0FF]; simp [encode]; decide
theorem sknp (x : Nibble) : Statement (.sknp x) := by
  refine ⟨_, List.mem_of_getElem? (i := 25) rfl, ?_, by simp [encode]⟩
  rw [OpcodeRow.selects, mask_F0FF]; simp [encode]; decide
theorem ldVxDt (x : Nibble) : Statement (.ldVxDt x) := by
  refine ⟨_, List.mem_of_getElem? (i := 26) rfl, ?_, by simp [encode]⟩
  rw [OpcodeRow.selects, mask_F0FF]; simp [encode]; decide
theorem ldVxK (x : Nibble) : Statement (.ldVxK x) := by
  refine ⟨_, List.mem_of_getElem? (i := 27) rfl, ?_, by simp [encode]⟩
  rw [OpcodeRow.selects, mask_F0FF]; simp [encode]; decide
theorem ldDtVx (x : Nibble) : Statement (.ldDtVx x) := by
  refine ⟨_, List.mem_of_getElem? (i := 28) rfl, ?_, by simp [encode]⟩
  rw [OpcodeRow.selects, mask_F0FF]; simp [encode]; decide
theorem ldStVx (x : Nibble) : Statement (.ldStVx x) := by
  refine ⟨_, List.mem_of_getElem? (i := 29) rfl, ?_, by simp [encode]⟩
  rw [OpcodeRow.selects, mask_F0FF]; simp [encode]; decide
theorem addI (x : Nibble) : Statement (.addI x) := by
  refine ⟨_, List.mem_of_getElem? (i := 30) rfl, ?_, by simp [encode]⟩
  rw [OpcodeRow.selects, mask_F0FF]; simp [encode]; decide
theorem ldF (x : Nibble) : Statement (.ldF x) := by
  refine ⟨_, List.mem_of_getElem? (i := 31) rfl, ?_, by simp [encode]⟩
  rw [OpcodeRow.selects, mask_F0FF]; simp [encode]; decide
theorem ldB (x : Nibble) : Statement (.ldB x) := by
  refine ⟨_, List.mem_of_getElem? (i := 32) rfl, ?_, by simp [encode]⟩
  rw [OpcodeRow.selects, mask_F0FF]; simp [encode]; decide
theorem ldIVx (x : Nibble) : Statement (.ldIVx x) := by
  refine ⟨_, List.mem_of_getElem? (i := 33) rfl, ?_, by simp [encode]⟩
  rw [OpcodeRow.selects, mask_F0FF]; simp [encode]; decide
theorem ldVxI (x : Nibble) : Statement (.ldVxI x) := by
  refine ⟨_, List.mem_of_getElem? (i := 34) rfl, ?_, by simp [encode]⟩
  rw [OpcodeRow.selects, mask_F0FF]; simp [encode]; decide

end Sys2Proof.Laws.OpcodeRow
end

