-- ==== Sys2Proof/Tests/Slice0.lean ====
section
/-! SUPPORT. The model's own tests: ill-formed terms refused, one word of every row decoded, one or two
steps of every instruction against the vectors of 95_test_vectors.md, and a witness for the hypotheses
of every obligation. -/

namespace Sys2Proof.Tests

open Sys2Proof Sys2Proof.Machine

/-! ### Well-formedness: the one check, on both of its words -/

theorem test_wf_refuses_sys_0E0 : (Instr.sys 0x0E0#12).wf = false := by decide
theorem test_wf_refuses_sys_0EE : (Instr.sys 0x0EE#12).wf = false := by decide

/-! ### Decoding: words written out from the patterns of 30_encoding.md R95 and from 95 section 2.1 -/

theorem test_decode_control : [0x00E0#16, 0x00EE#16, 0x0123#16, 0x1ABC#16, 0x2300#16, 0xBFFF#16].map decodeWord =
    [some .cls, some .ret, some (.sys 0x123#12), some (.jp 0xABC#12), some (.call 0x300#12),
      some (.jpV0 0xFFF#12)] := by decide
theorem test_decode_skips : [0x332A#16, 0x4300#16, 0x5120#16, 0x9AB0#16, 0xE19E#16, 0xE5A1#16].map decodeWord =
    [some (.seImm 3#4 0x2A#8), some (.sneImm 3#4 0#8), some (.seReg 1#4 2#4), some (.sneReg 0xA#4 0xB#4),
      some (.skp 1#4), some (.sknp 5#4)] := by decide
theorem test_decode_immediates : [0x6A7F#16, 0x71FF#16, 0xA300#16, 0xC10F#16, 0xD123#16].map decodeWord =
    [some (.ldImm 0xA#4 0x7F#8), some (.addImm 1#4 0xFF#8), some (.ldI 0x300#12), some (.rnd 1#4 0x0F#8),
      some (.drw 1#4 2#4 3#4)] := by decide
theorem test_decode_alu : [0x8120#16, 0x8121#16, 0x8122#16, 0x8123#16, 0x8124#16, 0x8125#16, 0x8126#16,
      0x8127#16, 0x812E#16].map decodeWord =
    [some (.ldReg 1#4 2#4), some (.orReg 1#4 2#4), some (.andReg 1#4 2#4), some (.xorReg 1#4 2#4),
      some (.addReg 1#4 2#4), some (.sub 1#4 2#4), some (.shr 1#4 2#4), some (.subn 1#4 2#4),
      some (.shl 1#4 2#4)] := by decide
theorem test_decode_familyF : [0xF407#16, 0xF10A#16, 0xF415#16, 0xF418#16, 0xF21E#16, 0xF329#16, 0xF033#16,
      0xF355#16, 0xF265#16].map decodeWord =
    [some (.ldVxDt 4#4), some (.ldVxK 1#4), some (.ldDtVx 4#4), some (.ldStVx 4#4), some (.addI 2#4),
      some (.ldF 3#4), some (.ldB 0#4), some (.ldIVx 3#4), some (.ldVxI 2#4)] := by decide
theorem test_decode_unrecognized : [0x5121#16, 0x8128#16, 0x812F#16, 0x9AB1#16, 0xE19F#16, 0xF100#16, 0xF175#16,
      0xFFFF#16].map decodeWord = List.replicate 8 none := by decide
theorem test_decode_bytes_big_endian :
    decode [0xA3#8, 0x00#8, 0x12#8] = .instr (.ldI 0x300#12) [0x12#8] ∧ decode [0xA3#8] = .rejected .truncated ∧
    decodeTableWord 16 0xD123 = some (.drw 1#4 2#4 3#4) := by decide

/-! ### One step from a small state -/

/-- The step that runs a word at `pc`. -/
def stepWord (w : Nat) (s : State) : Option State :=
  match step (s.withFetchWord 16 w) with
  | .next t => some t
  | .fault _ => none
  | .refused _ => none

/-- Whether the step that runs a word at `pc` leaves a state with a property. -/
def leaves (w : Nat) (s : State) (p : State → Bool) : Bool := (stepWord w s).any p

/-- The anomaly of the step that runs a word at `pc`. -/
def signals (w : Nat) (s : State) : Option Anomaly := (stepReport (s.withFetchWord 16 w)).map (·.anomaly)

/-- After reset, with V1 and V2 set. -/
def withV1V2 (a b : Byte) : State := (State.reset.setReg 1#4 a).setReg 2#4 b

/-- After reset, with `I`, V0 and V1 set. -/
def withIV0V1 (i : Word) (a b : Byte) : State := { (State.reset.setReg 0#4 a).setReg 1#4 b with I := i }

/-- After reset, with the stack holding `n` slots, the last pushed one `ret`. -/
def withStack (n : Fin 17) (ret : Word) : State :=
  { State.reset with sp := n, stack := Vector.replicate 16 ret }

/-- After reset, with the listed keys pressed and V1 set. -/
def withKeys (ks : List (Fin 16)) (v1 : Byte) : State :=
  { State.reset.setReg 1#4 v1 with key := ks.foldl (fun m k => m.set k.val true k.isLt) (Vector.replicate 16 false) }

/-- V1 and VF. -/
def v1vf (t : State) : Byte × Byte := (t.reg 1#4, t.reg 0xF#4)

-- 95 section 2.2
theorem test_jp : leaves 0x1ABC State.reset (fun t => t.pc == 0xABC#16) = true := by decide
theorem test_call : leaves 0x2300 (withStack 15 0#16) (fun t =>
    t.pc == 0x300#16 && t.sp == 16 && t.stack[15] == 0x202#16) = true := by decide
theorem test_call_full : leaves 0x2300 (withStack 16 7#16) (fun t =>
    t.pc == 0x202#16 && t.sp == 16 && t.stack == Vector.replicate 16 7#16) = true ∧
    signals 0x2300 (withStack 16 7#16) = some .stackOverflow := by decide
theorem test_ret : leaves 0x00EE (withStack 1 0x206#16) (fun t => t.pc == 0x206#16 && t.sp == 0) = true := by decide
theorem test_ret_empty : leaves 0x00EE State.reset (fun t => t.pc == 0x202#16 && t.sp == 0) = true ∧
    signals 0x00EE State.reset = some .stackUnderflow := by decide
theorem test_jpV0 : leaves 0xB300 (withIV0V1 0#16 0x10#8 0#8) (fun t => t.pc == 0x310#16) = true := by decide
theorem test_jpV0_not_masked : leaves 0xBFFF (withIV0V1 0#16 0xFF#8 0#8) (fun t =>
    t.pc == 0x10FE#16 && (stepReport t).isNone) = true := by decide
theorem test_seImm : leaves 0x312A (withV1V2 0x2A 0) (fun t => t.pc == 0x204#16) = true ∧
    leaves 0x312B (withV1V2 0x2A 0) (fun t => t.pc == 0x202#16) = true := by decide
theorem test_sneImm : leaves 0x412A (withV1V2 0x2A 0) (fun t => t.pc == 0x202#16) = true ∧
    leaves 0x4100 (withV1V2 0x2A 0) (fun t => t.pc == 0x204#16) = true := by decide
theorem test_seReg : leaves 0x5120 (withV1V2 7 7) (fun t => t.pc == 0x204#16) = true ∧
    leaves 0x5120 (withV1V2 7 8) (fun t => t.pc == 0x202#16) = true := by decide
theorem test_sneReg : leaves 0x9120 (withV1V2 7 8) (fun t => t.pc == 0x204#16) = true ∧
    leaves 0x9120 (withV1V2 7 7) (fun t => t.pc == 0x202#16) = true := by decide
theorem test_sys : leaves 0x0123 State.reset (fun t => t.pc == 0x202#16) = true ∧
    signals 0x0123 State.reset = some .none := by decide
theorem test_unrecognized : leaves 0x8128 State.reset (fun t => t.pc == 0x202#16) = true ∧
    signals 0x8128 State.reset = some .unimplementedOpcode := by decide
theorem test_last_fetch : leaves 0x00E0 { State.reset with pc := 0xFFE#16 } (fun t => t.pc == 0x1000#16) = true := by
  decide

-- 95 section 2.3
theorem test_ldImm : leaves 0x6F05 State.reset (fun t => t.reg 0xF#4 == 5#8) = true := by decide
theorem test_addImm : leaves 0x7102 (withV1V2 0xFF 0) (fun t => v1vf t == (1#8, 0#8)) = true := by decide
theorem test_ldReg : leaves 0x8120 (withV1V2 0x11 0x33) (fun t => v1vf t == (0x33#8, 0#8)) = true := by decide
theorem test_or : leaves 0x8121 (withV1V2 0x0F 0xF0) (fun t => v1vf t == (0xFF#8, 0#8)) = true := by decide
theorem test_or_keeps_VF : leaves 0x81F1 ((withV1V2 0xF0 0).setReg 0xF#4 7#8) (fun t =>
    v1vf t == (0xF7#8, 7#8)) = true := by decide
theorem test_and : leaves 0x8122 (withV1V2 0x3C 0x0F) (fun t => v1vf t == (0x0C#8, 0#8)) = true := by decide
theorem test_xor : leaves 0x8123 (withV1V2 0xFF 0x0F) (fun t => v1vf t == (0xF0#8, 0#8)) = true := by decide
theorem test_addReg : leaves 0x8124 (withV1V2 0xC8 0x38) (fun t => v1vf t == (0#8, 1#8)) = true ∧
    leaves 0x8124 (withV1V2 0xC8 0x37) (fun t => v1vf t == (0xFF#8, 0#8)) = true := by decide
theorem test_addReg_VF_destination : leaves 0x8F14 ((withV1V2 0x38 0).setReg 0xF#4 0xC8#8) (fun t =>
    v1vf t == (0x38#8, 0#8)) = true := by decide
theorem test_sub : leaves 0x8125 (withV1V2 0x10 0x20) (fun t => v1vf t == (0xF0#8, 0#8)) = true ∧
    leaves 0x8125 (withV1V2 7 7) (fun t => v1vf t == (0#8, 1#8)) = true := by decide
theorem test_subn : leaves 0x8127 (withV1V2 0x10 0x20) (fun t => v1vf t == (0x10#8, 1#8)) = true ∧
    leaves 0x8127 (withV1V2 1 0) (fun t => v1vf t == (0xFF#8, 0#8)) = true := by decide
theorem test_shr : leaves 0x8126 (withV1V2 0x05 0x08) (fun t => v1vf t == (2#8, 1#8)) = true ∧
    leaves 0x8126 (withV1V2 0x80 0xFF) (fun t => v1vf t == (0x40#8, 0#8)) = true := by decide
theorem test_shl : leaves 0x812E (withV1V2 0x81 0) (fun t => v1vf t == (2#8, 1#8)) = true ∧
    leaves 0x812E (withV1V2 0x7F 0xFF) (fun t => v1vf t == (0xFE#8, 0#8)) = true := by decide
theorem test_shr_other_source :
    v1vf (runShr .vy 1#4 2#4 (withV1V2 0x05 0x08)).state = (4#8, 0#8) := by decide

/-- Parameters other than the defaults: all four differ. -/
def otherParams : Config where
  font := Vector.replicate 80 0x11#8
  shiftSource := .vy
  keyWaitChoice key := if key[15] then 15#4 else lowestPressed key
  rngNext seed := seed + 1#32

theorem test_shr_under_other_params : v1vf (effectUnder otherParams (.shr 1#4 2#4) (withV1V2 0x05 0x08)).state =
    (4#8, 0#8) := by decide
theorem test_reset_under_other_params : (State.resetUnder otherParams 7#32).mem.read 79 = 0x11#8 ∧
    (State.resetUnder otherParams 7#32).mem.read 80 = 0#8 := by
  simp [read_resetUnder, otherParams]

-- 95 section 2.4
theorem test_ldI : leaves 0xAFFF State.reset (fun t => t.I == 0xFFF#16) = true := by decide
theorem test_addI : leaves 0xF11E (withIV0V1 0xFFF 0 1) (fun t => t.I == 0x1000#16 && t.reg 0xF#4 == 0#8) = true ∧
    leaves 0xF11E (withIV0V1 0xFFFF 0 1) (fun t => t.I == 0#16) = true := by decide
theorem test_ldF : leaves 0xF129 (withV1V2 0x0F 0) (fun t => t.I == 0x4B#16) = true ∧
    leaves 0xF129 (withV1V2 0x1A 0) (fun t => t.I == 0x32#16) = true := by decide
theorem test_ldB : leaves 0xF033 (withIV0V1 0x300 0xFF 0) (fun t =>
    t.mem.read 0x300 == 2#8 && t.mem.read 0x301 == 5#8 && t.mem.read 0x302 == 5#8) = true := by decide
theorem test_ldB_cut : leaves 0xF033 (withIV0V1 0xFFE 0xEA 0) (fun t =>
    t.mem.read 0xFFE == 2#8 && t.mem.read 0xFFF == 3#8 && t.pc == 0x202#16) = true ∧
    signals 0xF033 (withIV0V1 0xFFE 0xEA 0) = some .memoryBoundsViolation := by decide
theorem test_ldIVx : leaves 0xF155 (withIV0V1 0x300 0x11 0x22) (fun t =>
    t.mem.read 0x300 == 0x11#8 && t.mem.read 0x301 == 0x22#8 && t.I == 0x300#16) = true := by decide
theorem test_ldIVx_cut : leaves 0xF155 (withIV0V1 0xFFF 0x11 0x22) (fun t => t.mem.read 0xFFF == 0x11#8) = true ∧
    signals 0xF155 (withIV0V1 0xFFF 0x11 0x22) = some .memoryBoundsViolation := by decide
theorem test_ldVxI : leaves 0xF265 { State.reset with I := 0x300#16, mem := [(0x300, 2#8), (0x301, 3#8), (0x302, 4#8)] }
    (fun t => t.reg 0#4 == 2#8 && t.reg 1#4 == 3#8 && t.reg 2#4 == 4#8) = true := by decide
theorem test_ldVxI_cut : leaves 0xF165 { withIV0V1 0xFFF 0 0x99 with mem := [(0xFFF, 0x22#8)] } (fun t =>
    t.reg 0#4 == 0x22#8 && t.reg 1#4 == 0x99#8) = true := by decide

-- 95 section 2.5 e, f, h and the toggle of c
theorem test_cls : leaves 0x00E0 { State.reset with fb := Vector.replicate 32 7#64, draw := false } (fun t =>
    t.fb == Vector.replicate 32 0#64 && t.draw) = true := by decide
/-- Vector h: V0 = 70, V1 = 33, sprite byte 0x80: the cell of row 1, column 6. -/
theorem test_drw_wraps : leaves 0xD011 { withIV0V1 0x300 70 33 with mem := [(0x300, 0x80#8)], draw := false } (fun t =>
    t.fb == (Vector.replicate 32 0#64).set 1 0x40#64 && t.reg 0xF#4 == 0#8 && t.draw) = true := by decide
theorem test_drw_collides_and_is_cut : leaves 0xD013 { withIV0V1 0xFFF 0 0 with
      mem := [(0xFFF, 0xC0#8)], fb := (Vector.replicate 32 0#64).set 0 0x1#64 } (fun t =>
    t.fb == (Vector.replicate 32 0#64).set 0 0x2#64 && t.reg 0xF#4 == 1#8) = true ∧
    signals 0xD013 (withIV0V1 0xFFF 0 0) = some .memoryBoundsViolation := by decide

-- 95 section 2.6
theorem test_skp : leaves 0xE19E (withKeys [10] 0x1A) (fun t => t.pc == 0x204#16) = true ∧
    leaves 0xE19E (withKeys [] 0x05) (fun t => t.pc == 0x202#16) = true := by decide
theorem test_sknp : leaves 0xE1A1 (withKeys [5] 0x05) (fun t => t.pc == 0x202#16) = true ∧
    leaves 0xE1A1 (withKeys [] 0x05) (fun t => t.pc == 0x204#16) = true := by decide
theorem test_ldVxK : leaves 0xF10A (withKeys [] 9) (fun t => t.pc == 0x200#16 && t.reg 1#4 == 9#8) = true ∧
    leaves 0xF10A (withKeys [9, 4] 0) (fun t => t.pc == 0x202#16 && t.reg 1#4 == 4#8) = true := by decide
theorem test_ldVxDt : leaves 0xF107 { State.reset with DT := 0x3C#8, ST := 1#8 } (fun t =>
    t.reg 1#4 == 0x3C#8 && t.DT == 0x3C#8) = true := by decide
theorem test_ldDtVx : leaves 0xF115 (withV1V2 0x3C 0) (fun t => t.DT == 0x3C#8 && t.ST == 0#8) = true := by decide
theorem test_ldStVx : leaves 0xF118 (withV1V2 2 0) (fun t => t.ST == 2#8 && t.DT == 0#8 && t.tone) = true := by decide
theorem test_rnd : leaves 0xC0FF State.reset (fun t => t.seed == 1103527590#32 && t.reg 0#4 == 0xA6#8) = true ∧
    leaves 0xC200 { State.reset with seed := 944465040#32 } (fun t =>
      t.seed == 1695244727#32 && t.reg 2#4 == 0#8) = true := by decide
theorem test_rnd_reduces_the_seed : leaves 0xC0FF { State.reset with seed := 0xFFFFFFFF#32 } (fun t =>
    t.seed == 1103527590#32) = true := by decide
theorem test_tick : (State.tick { State.reset with DT := 3#8, ST := 1#8 }).DT = 2#8 ∧
    (State.tick { State.reset with DT := 3#8, ST := 1#8 }).tone = false ∧ State.reset.tick.DT = 0#8 := by decide
theorem test_reset_font : (List.range 5).map State.reset.mem.read = [0xF0#8, 0x90#8, 0x90#8, 0x90#8, 0xF0#8] ∧
    (List.range 5).map (fun k => State.reset.mem.read (0x4B + k)) = [0xF0#8, 0x80#8, 0xF0#8, 0x80#8, 0x80#8] ∧
    State.reset.mem.read 0x50 = 0#8 := by decide

/-! ### Witnesses: for every obligation with hypotheses, an input that meets them, one a clause -/

theorem test_witness_DecodeOfEncode : (Instr.sys 0x0E1#12).wf = true ∧ (Instr.drw 0#4 15#4 0#4).wf = true := by decide
theorem test_witness_EncodeOfDecode : decodeWord 0x8AB6#16 = some (.shr 0xA#4 0xB#4) := by decide
/-- The last address a fetch works from. -/
theorem test_witness_StepRuns_last : ∃ s : State, s.pc.toNat = 4094 ∧ decodeWord (BitVec.ofNat 16
    ((s.mem.read s.pc.toNat).toNat * 256 + (s.mem.read (s.pc.toNat + 1)).toNat)) = some (.ldI 0x123#12) :=
  ⟨{ State.reset with pc := 0xFFE#16, mem := [(0xFFE, 0xA1#8), (0xFFF, 0x23#8)] }, by decide⟩
/-- An odd address. -/
theorem test_witness_StepRuns_odd : ∃ s : State, s.pc.toNat = 0x201 ∧ decodeWord (BitVec.ofNat 16
    ((s.mem.read s.pc.toNat).toNat * 256 + (s.mem.read (s.pc.toNat + 1)).toNat)) = some (.ldI 0x123#12) :=
  ⟨{ State.reset with pc := 0x201#16, mem := [(0x201, 0xA1#8), (0x202, 0x23#8)] }, by decide⟩
theorem test_witness_Unrecognized : ∃ s : State, s.pc.toNat ≤ 4094 ∧ decodeWord (BitVec.ofNat 16
    ((s.mem.read s.pc.toNat).toNat * 256 + (s.mem.read (s.pc.toNat + 1)).toNat)) = none :=
  ⟨{ State.reset with pc := 0xFFE#16, mem := [(0xFFE, 0x81#8), (0xFFF, 0x28#8)] }, by decide⟩
theorem test_witness_StepFaults : 4094 < ({ State.reset with pc := 0xFFF#16 } : State).pc.toNat ∧
    ({ State.reset with pc := 0xFFE#16 } : State).pc.toNat ≤ 4094 := by decide
theorem test_witness_PlacedWord : State.reset.mem.wf ∧ State.reset.pc.toNat ≤ 4094 ∧
    decodeWord 0x00E0#16 = some .cls := by decide
theorem test_witness_CallPushes : (withStack 0 0#16).sp = (0 : Fin 16).castSucc ∧
    (withStack 15 0#16).sp = (15 : Fin 16).castSucc := by decide
theorem test_witness_CallOnFullStack : (withStack 16 0#16).sp.val = 16 ∧
    (report (.call 0#12) (withStack 16 0#16)).anomaly = .stackOverflow := by decide
theorem test_witness_RetPops : (withStack 1 0#16).sp = (0 : Fin 16).succ ∧
    (withStack 16 0#16).sp = (15 : Fin 16).succ := by decide
theorem test_witness_RetOnEmptyStack : State.reset.sp.val = 0 ∧
    (report .ret State.reset).anomaly = .stackUnderflow := by decide
theorem test_witness_NestedCalls : (withStack 15 0#16).sp.val + [0x300#12].length ≤ 16 ∧
    (withStack 0 0#16).sp.val + (List.replicate 16 0x200#12).length ≤ 16 := by decide
theorem test_witness_SkipsOnRegisters : ∃ n : Nibble, n ≠ 0#4 := ⟨0xF#4, by decide⟩
theorem test_witness_SysIsIgnored : (0x0E1#12 ≠ 0x0E0#12 ∧ 0x0E1#12 ≠ 0x0EE#12) ∧ (0xFFF#12 ≠ 0x0E0#12 ∧ 0xFFF#12 ≠ 0x0EE#12) := by
  decide
/-- The flag clauses of ADD, SUB, SUBN, SHR, SHL. -/
theorem test_witness_FlagClauses : ∀ x ∈ [0x0#4, 0xE#4], x ≠ 0xF#4 := by decide
/-- The stores at the last address, at the first beyond memory, and all in range. -/
theorem test_witness_Stores : ∀ i ∈ [0xFFD#16, 0xFFE#16, 0xFFF#16, 0x1000#16], (withIV0V1 i 1 2).mem.wf ∧
    (withIV0V1 i 1 2).I = i := fun _ _ => ⟨Memory.wf_reset 1#32, rfl⟩
theorem test_witness_StoreClauses : (0xFFF#16).toNat ≤ 4095 ∧ (0xFFE#16).toNat + 1 ≤ 4095 ∧
    (0xFFD#16).toNat + 2 ≤ 4095 ∧ (0xF#4).toNat ≤ (0xF#4).toNat ∧ (0xFF0#16).toNat + (0xF#4).toNat ≤ 4095 := by decide
theorem test_witness_StoredBytes : ∃ s t u : State, s.mem.wf ∧ exec (.ldIVx 1#4) s = .next t ∧ u.mem = t.mem ∧
    u.I = s.I ∧ u.pc.toNat = s.I.toNat + (0#4).toNat ∧ s.I.toNat + (0#4).toNat + 1 ≤ 4095 ∧
    (0#4).toNat + 1 ≤ (1#4).toNat :=
  ⟨withIV0V1 0xFFE 0xA3 0, _, { (effect (.ldIVx 1#4) (withIV0V1 0xFFE 0xA3 0)).state with pc := 0xFFE#16 },
    by decide, exec_eq _ _, rfl, rfl, by decide⟩
/-- A state whose cell (0, 0) is on and whose sprite byte sets the pixel there. -/
def sprited : State :=
  { withIV0V1 0x300 0 0 with mem := [(0x300, 0x80#8)], fb := (Vector.replicate 32 0#64).set 0 0x1#64 }
theorem test_witness_DrawCollision : Framebuffer.cell sprited.fb 0 0 = true ∧
    spritePixel sprited.mem sprited.I.toNat (sprited.reg 0#4) (sprited.reg 0#4) (1#4).toNat 0 0 :=
  ⟨by decide, 0, by decide, by decide, 0, by decide, by decide, by decide, by decide⟩
theorem test_witness_DrawNoCollision : ¬ ∃ (r : Fin 32) (c : Fin 64), Framebuffer.cell sprited.fb r c = true ∧
    spritePixel sprited.mem sprited.I.toNat (sprited.reg 0#4) (sprited.reg 0#4) (0#4).toNat r c := by
  rintro ⟨_, _, _, k, hk, _⟩
  exact Nat.not_lt_zero k hk
/-- The cell (0, 0) turned off, and no cell turned off. -/
theorem test_witness_Collision : Framebuffer.cell sprited.fb 0 0 = true ∧
    Framebuffer.cell (effect (.drw 0#4 1#4 1#4) sprited).state.fb 0 0 = false ∧
    ∀ (r : Fin 32) (c : Fin 64), Framebuffer.cell sprited.fb r c = true →
      Framebuffer.cell (effect (.drw 0#4 1#4 0#4) sprited).state.fb r c = true :=
  ⟨by decide, by decide, fun _ _ h => h⟩
theorem test_witness_SecondDraw : ∃ t, exec (.drw 0#4 1#4 1#4) sprited = .next t ∧
    t.reg 0#4 = sprited.reg 0#4 ∧ t.reg 1#4 = sprited.reg 1#4 :=
  ⟨_, exec_eq _ _, by decide⟩
theorem test_witness_SkipsOnKeys : (0xA#4).toNat = ((withKeys [10] 0x1A).reg 1#4).toNat % 16 := by decide
/-- No key pressed, and two keys of which 4 is the lowest. -/
theorem test_witness_WaitForKey : (∀ k, (withKeys [] 0).pressed k = false) ∧ (withKeys [9, 4] 0).pressed 4#4 = true ∧
    ∀ j : Nibble, j.toNat < (4#4).toNat → (withKeys [9, 4] 0).pressed j = false := by decide
theorem test_witness_WaitForKeyUnderAnyChoice : (withKeys [15] 0).pressed ((fun _ => 15#4) (withKeys [15] 0).key) = true ∧
    (withKeys [15] 0).pressed 15#4 = true ∧ ∀ j, (withKeys [15] 0).pressed j = true → j = 15#4 := by decide
theorem test_witness_RandomSeed : (∃ t, exec .cls State.reset = .next t) ∧ (∀ x nn, Instr.cls ≠ .rnd x nn) ∧
    (∀ seedIn, Operation.tick ≠ .reset seedIn) ∧ Operation.tick ≠ .step ∧ ∃ t, State.reset.operate .tick = .next t :=
  ⟨⟨_, exec_eq _ _⟩, nofun, nofun, nofun, ⟨_, rfl⟩⟩
theorem test_witness_DrawFlag : (∃ t, exec .cls State.reset = .next t) ∧ Operation.tick ≠ .clearDraw ∧
    State.reset.draw = true ∧ ∃ t, State.reset.operate .tick = .next t :=
  ⟨⟨_, exec_eq _ _⟩, nofun, rfl, ⟨_, rfl⟩⟩
theorem test_witness_SetKey : 15 < 16 ∧ 16 ≤ 16 := by decide
theorem test_witness_Load : State.reset.mem.wf ∧ (List.replicate 3584 (1#8 : Byte)).length ≤ 3584 ∧
    3584 < (List.replicate 3585 (1#8 : Byte)).length :=
  ⟨Memory.wf_reset _, by rw [List.length_replicate], by rw [List.length_replicate]; decide⟩
theorem test_witness_NothingBeforeReset : [Operation.step, Operation.tick] ≠ [] ∧
    ∀ op ∈ [Operation.step, Operation.tick], ∀ seedIn, op ≠ .reset seedIn :=
  ⟨nofun, fun op h seedIn => by rcases List.mem_pair.mp h with rfl | rfl <;> nofun⟩
/-- One instruction for each element that it changes. -/
theorem test_witness_StateElements : ∃ s : State, (effect (.ldIVx 0#4) s).state.mem ≠ s.mem ∧
    (effect (.ldI 0x300#12) s).state.I ≠ s.I ∧ (effect (.call 0#12) s).state.stack ≠ s.stack ∧
    (effect (.call 0#12) s).state.sp ≠ s.sp ∧ (effect (.ldDtVx 0#4) s).state.DT ≠ s.DT ∧
    (effect (.ldStVx 0#4) s).state.ST ≠ s.ST ∧ (effect .cls s).state.fb ≠ s.fb ∧
    (effect (.ldImm 0#4 1#8) s).state.V ≠ s.V ∧ (effect .cls s).state.draw ≠ s.draw ∧
    (effect (.rnd 0#4 0#8) s).state.seed ≠ s.seed :=
  ⟨{ withIV0V1 0x400 7 0 with fb := sprited.fb, draw := false }, by decide⟩
theorem test_witness_FlagWriters : (effect (.addReg 1#4 2#4) (withV1V2 0xFF 1)).state.reg 0xF#4 ≠
    (withV1V2 0xFF 1).reg 0xF#4 := by decide
/-- Two states that differ in the draw flag, the sound timer and a dead slot. -/
theorem test_witness_InvisibleState : ∃ s s' t : State, s ≠ s' ∧ SameToProgram s s' ∧ step s = .next t := by
  refine ⟨State.reset, { State.reset with draw := false, ST := 9#8, stack := Vector.replicate 16 5#16 }, _, by decide,
    ⟨rfl, rfl, rfl, rfl, rfl, ?_, rfl, rfl, rfl, rfl⟩,
    (step_decoded (i := .sys 0#12) (by decide) (by decide)).trans (exec_eq _ _)⟩
  intro k hk
  exact absurd hk (Nat.not_lt_zero _)
theorem test_witness_SelfJump : ∃ s : State, s.pc = BitVec.ofNat 16 (0xFFE#12).toNat ∧ (0xFFE#12).toNat ≤ 4094 ∧
    s.fetch = some (wordNNN 0x1#4 0xFFE#12) :=
  ⟨{ State.reset with pc := 0xFFE#16, mem := [(0xFFE, 0x1F#8), (0xFFF, 0xFE#8)] }, by decide⟩
theorem test_witness_CanonicalMemories : Memory.wf [(0xFFE, 0x1F#8), (0xFFF, 0xFE#8)] := by decide
theorem test_witness_StepKeepsInvariant : State.reset.Inv ∧ ∃ t, step State.reset = .next t :=
  ⟨by decide, _, (step_decoded (i := .sys 0#12) (by decide) (by decide)).trans (exec_eq _ _)⟩
theorem test_witness_AnyOperations : (Block.live State.reset).Inv ∧ Block.unreset.Inv :=
  ⟨show State.reset.Inv by decide, trivial⟩
theorem test_witness_OtherSource : otherParams.shiftSource = .vy := rfl
/-- The clauses on the parameters: an instruction none reaches, a choice R232 allows, a key pressed and none. -/
theorem test_witness_Parameters : ((∀ x y, Instr.cls ≠ .shr x y ∧ Instr.cls ≠ .shl x y) ∧
    (∀ x, Instr.cls ≠ .ldVxK x) ∧ ∀ x nn, Instr.cls ≠ .rnd x nn) ∧ params.PicksPressed ∧
    (∃ k, (withKeys [15] 0).pressed k = true) ∧ ∀ k, (withKeys [] 0).pressed k = false :=
  ⟨⟨fun _ _ => ⟨nofun, nofun⟩, nofun, nofun⟩, params_picksPressed, ⟨15#4, by decide⟩, by decide⟩
/-- A font address, and the first address beyond the font. -/
theorem test_witness_Reset : 79 < 80 ∧ 80 ≤ 80 := by decide

end Sys2Proof.Tests
end

/-! ## The draw flag (10_state.md R31, 44_display.md R213)

An operation on a state with another draw flag is the same operation with another draw flag in its result.
Said once for an instruction (`effectUnder_withDraw`), this gives both what an instruction leaves in the
flag and that it does not read it; said for an operation (`operateUnder_withDraw`), that none reads it. -/

namespace Sys2Proof.Machine

/-- The state with the draw flag put to a value. -/
def State.withDraw (d : Bool) (s : State) : State := { s with draw := d }

/-- The effect with the draw flag of its state put to a value. -/
def Effect.withDraw (d : Bool) (e : Effect) : Effect := ⟨e.state.withDraw d, e.report⟩

/-- The instructions that set the draw flag, CLS and DRW (R31). -/
def drawsInstr : Instr → Bool
  | .cls | .drw _ _ _ => true
  | _ => false

theorem drawsInstr_iff (i : Instr) : drawsInstr i = true ↔ i = .cls ∨ ∃ x y n, i = .drw x y n := by
  cases i <;> simp [drawsInstr]

theorem State.setRegsFrom_withDraw (d : Bool) (k : Nat) (vs : List Byte) (s : State) :
    State.setRegsFrom k vs (s.withDraw d) = (State.setRegsFrom k vs s).withDraw d := by
  induction vs generalizing k s with
  | nil => rfl
  | cons v vs ih => exact ih (k + 1) (s.setReg (BitVec.ofNat 4 k) v)

/-! ### Instructions -/

/-! The meanings with a branch or a loop: their tests do not mention the flag. -/

theorem runCall_withDraw (nnn : Imm12) (d : Bool) (s : State) :
    runCall nnn (s.withDraw d) = (runCall nnn s).withDraw d := by
  unfold runCall
  rw [apply_dite (Effect.withDraw d)]; rfl

theorem runRet_withDraw (d : Bool) (s : State) : runRet (s.withDraw d) = (runRet s).withDraw d := by
  unfold runRet
  rw [apply_ite (Effect.withDraw d)]; rfl

theorem runLdVxK_withDraw (choice : Vector Bool 16 → Nibble) (x : Nibble) (d : Bool) (s : State) :
    runLdVxK choice x (s.withDraw d) = (runLdVxK choice x s).withDraw d := by
  unfold runLdVxK
  rw [apply_ite (Effect.withDraw d)]; rfl

theorem runLdVxI_withDraw (x : Nibble) (d : Bool) (s : State) :
    runLdVxI x (s.withDraw d) = (runLdVxI x s).withDraw d := by
  unfold runLdVxI
  rw [State.setRegsFrom_withDraw]; rfl

/-- An instruction does not read the draw flag, and sets it if it is CLS or DRW, else leaves it. -/
theorem effectUnder_withDraw (cfg : Config) (i : Instr) (d : Bool) (s : State) :
    effectUnder cfg i (s.withDraw d) = (effectUnder cfg i s).withDraw (drawsInstr i || d) := by
  cases i with
  | call nnn => exact runCall_withDraw nnn d s
  | ret => exact runRet_withDraw d s
  | ldVxK x => exact runLdVxK_withDraw cfg.keyWaitChoice x d s
  | ldVxI x => exact runLdVxI_withDraw x d s
  | _ => rfl

/-- The draw flag after an instruction. -/
theorem effectUnder_draw (cfg : Config) (i : Instr) (s : State) :
    (effectUnder cfg i s).state.draw = (drawsInstr i || s.draw) :=
  congrArg (·.state.draw) (effectUnder_withDraw cfg i s.draw s)

theorem effect_draw (i : Instr) (s : State) : (effect i s).state.draw = (drawsInstr i || s.draw) :=
  effectUnder_draw params i s

/-- CLS and DRW set the draw flag. -/
theorem exec_sets_draw {i : Instr} (hi : drawsInstr i = true) (s : State) :
    ∃ t, exec i s = .next t ∧ t.draw = true :=
  ⟨_, exec_eq i s, by rw [effect_draw, hi, Bool.true_or]⟩

/-- An instruction leaves the draw flag, or is CLS or DRW and sets it. -/
theorem exec_draw {i : Instr} {s t : State} (h : exec i s = .next t) :
    t.draw = s.draw ∨ (t.draw = true ∧ (i = .cls ∨ ∃ x y n, i = .drw x y n)) := by
  rw [(exec_next_iff i s t).mp h, effect_draw, ← drawsInstr_iff]
  cases hd : drawsInstr i with
  | true => exact .inr ⟨rfl, rfl⟩
  | false => exact .inl rfl

/-! ### The step -/

/-- A step does not read the draw flag: it has the same effect, the flag apart. -/
theorem cycle_withDraw (cfg : Config) (d : Bool) (s : State) :
    ∃ d', (s.withDraw d).cycle cfg = (s.cycle cfg).map (Effect.withDraw d') := by
  rcases Nat.lt_or_ge 4094 s.pc.toNat with ho | hi
  · exact ⟨d, by rw [cycle_out_of_range cfg ho, cycle_out_of_range cfg (s := s.withDraw d) ho]; rfl⟩
  · cases hd : decodeWord (fetchedWord s) with
    | some i =>
      refine ⟨drawsInstr i || d, ?_⟩
      rw [cycle_decoded cfg hi hd, cycle_decoded cfg (s := s.withDraw d) hi hd, effectUnder_withDraw]; rfl
    | none =>
      exact ⟨d, by rw [cycle_unrecognized cfg hi hd, cycle_unrecognized cfg (s := s.withDraw d) hi hd]; rfl⟩

theorem stepReportUnder_withDraw (cfg : Config) (d : Bool) (s : State) :
    stepReportUnder cfg (s.withDraw d) = stepReportUnder cfg s := by
  obtain ⟨d', hc⟩ := cycle_withDraw cfg d s
  unfold stepReportUnder
  rw [hc, Option.map_map]; rfl

theorem stepUnder_withDraw (cfg : Config) (d : Bool) {s t : State} (h : stepUnder cfg s = .next t) :
    ∃ d', stepUnder cfg (s.withDraw d) = .next (t.withDraw d') := by
  obtain ⟨d', hc⟩ := cycle_withDraw cfg d s
  refine ⟨d', ?_⟩
  unfold stepUnder at h ⊢
  rw [hc]
  cases he : s.cycle cfg with
  | none => rw [he] at h; cases h
  | some e => rw [he] at h; cases h; rfl

/-- No step turns the draw flag off. -/
theorem stepUnder_keeps_draw {cfg : Config} {s t : State} (hs : s.draw = true)
    (h : stepUnder cfg s = .next t) : t.draw = true := by
  obtain ⟨-, ⟨i, -, rfl⟩ | ⟨-, rfl⟩⟩ := stepUnder_cases h
  · rw [effectUnder_draw, hs, Bool.or_true]
  · exact hs

/-! ### The operations -/

/-- A `set_key` that answers a next state had a legal index (R240). -/
theorem operateUnder_setKey_next {cfg : Config} {k : Nat} {b : Bool} {s t : State}
    (h : s.operateUnder cfg (.setKey k b) = .next t) : ∃ hk : k < 16, t = s.setKey k b hk := by
  by_cases hk : k < 16
  · cases (dif_pos hk).symm.trans h; exact ⟨hk, rfl⟩
  · cases (dif_neg hk).symm.trans h

theorem load_withDraw (d : Bool) (s : State) (bytes : List Byte) :
    (s.withDraw d).load bytes = ((s.load bytes).1.withDraw d, (s.load bytes).2) := by
  unfold State.load
  split <;> rfl

theorem load_draw (s : State) (bytes : List Byte) : (s.load bytes).1.draw = s.draw :=
  congrArg (·.1.draw) (load_withDraw s.draw s bytes)

/-- An operation does not read the draw flag: it answers the same state, the flag apart. -/
theorem operateUnder_withDraw (cfg : Config) (op : Operation) (d : Bool) {s t : State}
    (h : s.operateUnder cfg op = .next t) :
    ∃ d', (s.withDraw d).operateUnder cfg op = .next (t.withDraw d') := by
  cases op with
  | reset seedIn => cases h; exact ⟨true, rfl⟩
  | load bytes => cases h; exact ⟨d, by rw [State.operateUnder, load_withDraw]⟩
  | step => exact stepUnder_withDraw cfg d h
  | tick => cases h; exact ⟨d, rfl⟩
  | setKey k b =>
    obtain ⟨hk, rfl⟩ := operateUnder_setKey_next h
    exact ⟨d, dif_pos hk⟩
  | clearDraw => cases h; exact ⟨false, rfl⟩

/-- What an operation returns does not depend on the draw flag. -/
theorem replyUnder_withDraw (cfg : Config) (op : Operation) (d : Bool) (s : State) :
    (s.withDraw d).replyUnder cfg op = s.replyUnder cfg op := by
  cases op with
  | load bytes => rw [State.replyUnder, load_withDraw]; rfl
  | step => exact congrArg Reply.stepped (stepReportUnder_withDraw cfg d s)
  | reset _ | tick | setKey _ _ | clearDraw => rfl

/-- Only `clear_draw` turns the draw flag off. -/
theorem operateUnder_keeps_draw {cfg : Config} {op : Operation} {s t : State} (hop : op ≠ .clearDraw)
    (hs : s.draw = true) (h : s.operateUnder cfg op = .next t) : t.draw = true := by
  cases op with
  | reset seedIn => cases h; rfl
  | load bytes => cases h; rw [load_draw, hs]
  | step => exact stepUnder_keeps_draw hs h
  | tick => cases h; exact hs
  | setKey k b =>
    obtain ⟨-, rfl⟩ := operateUnder_setKey_next h
    exact hs
  | clearDraw => exact absurd rfl hop

/-- Settles O45: an instruction or operation commutes with a change of the draw flag
(`effectUnder_withDraw`, `operateUnder_withDraw`), and each leaves in the flag what R31 and R213 say. -/
theorem drawFlagIsSetByDrawingAndClearedByTheRenderer :
    Obligations.DrawFlagIsSetByDrawingAndClearedByTheRenderer := by
  refine ⟨fun _ => rfl, fun _ _ _ s => ⟨exec_sets_draw rfl s, exec_sets_draw rfl s⟩, fun _ _ _ => exec_draw,
    fun _ => rfl, fun _ _ _ => operateUnder_keeps_draw, fun op s t d h => ?_⟩
  obtain ⟨d', ht⟩ := operateUnder_withDraw params op d h
  exact ⟨t.withDraw d', ht, rfl, replyUnder_withDraw params op d s⟩

end Sys2Proof.Machine

/-! ## The step cycle (40_step_cycle.md R121, R125, R126) -/

namespace Sys2Proof.Machine

/-- The fetched word by arithmetic: `hi * 256 + lo` of the two bytes at `pc` (R121). -/
theorem fetchedWord_eq_ofNat (s : State) : fetchedWord s = BitVec.ofNat 16
    ((s.mem.read s.pc.toNat).toNat * 256 + (s.mem.read (s.pc.toNat + 1)).toNat) := by
  rw [← wordOfBytes_toNat, BitVec.ofNat_toNat, BitVec.setWidth_eq, fetchedWord]

/-- Settles O7: the word the statement computes is the fetched word (`fetchedWord_eq_ofNat`), and a step on
one that is no instruction is `step_unrecognized`, with the report of `stepReport_unrecognized`. -/
theorem unrecognizedWordIsAReportedNoOp : Obligations.UnrecognizedWordIsAReportedNoOp := by
  intro s hpc hd
  rw [← fetchedWord_eq_ofNat] at hd
  exact ⟨step_unrecognized hpc hd, stepReport_unrecognized hpc hd⟩

theorem decodeWord_family0 {w : Word} (h : fieldOp w = 0x0#4) : decodeWord w = some (decodeFamily0 w) := by
  simp only [decodeWord, h]

/-- In family 0 only the words of CLS and RET are not SYS: their `nnn` fields are 0E0 and 0EE. -/
theorem decodeFamily0_sys {w : Word} (hcls : fieldNNN w ≠ 0x0E0#12) (hret : fieldNNN w ≠ 0x0EE#12) :
    decodeFamily0 w = .sys (fieldNNN w) := by
  have hc : w ≠ 0x00E0#16 := by rintro rfl; exact hcls rfl
  have hr : w ≠ 0x00EE#16 := by rintro rfl; exact hret rfl
  rw [decodeFamily0, if_neg hc, if_neg hr]

theorem decodeWord_sys {nnn : Imm12} (hcls : nnn ≠ 0x0E0#12) (hret : nnn ≠ 0x0EE#12) :
    decodeWord (wordNNN 0x0#4 nnn) = some (.sys nnn) := by
  have hn := fieldNNN_wordNNN 0x0#4 nnn
  rw [decodeWord_family0 (fieldOp_wordNNN _ _), decodeFamily0_sys (by rwa [hn]) (by rwa [hn]), hn]

/-- SYS has the effect of advancing `pc`, and nothing to report (R125). -/
theorem effect_sys (nnn : Imm12) (s : State) : effect (.sys nnn) s = quietly s.advance := rfl

/-- Settles O20: `decodeWord_sys` gives the words, and `effect_sys` both the next state and the report. -/
theorem sysIsIgnored : Obligations.SysIsIgnored := by
  intro nnn s
  refine ⟨decodeWord_sys, ?_, ?_⟩
  · rw [exec_eq, effect_sys]; rfl
  · rw [report, effect_sys]; rfl

end Sys2Proof.Machine

/-! ## Control transfer (41_control_flow.md R140, R144, R145) -/

namespace Sys2Proof.Machine

/-! ### Effects with nothing to report -/

theorem exec_of_quietly {i : Instr} {s t : State} (h : effect i s = quietly t) : exec i s = .next t := by
  rw [exec_eq, h, quietly]

theorem report_of_quietly {i : Instr} {s t : State} (h : effect i s = quietly t) :
    report i s = ⟨false, .none⟩ := by
  rw [report, h, quietly, Report.quiet]

/-! ### JP -/

theorem decodeWord_jp (nnn : Imm12) : decodeWord (wordNNN 0x1#4 nnn) = some (.jp nnn) := by
  simp only [decodeWord, fieldOp_wordNNN, fieldNNN_wordNNN]

/-- An immediate address as `pc` holds it is the same number in 16 bits. -/
theorem zextImm_eq_ofNat (nnn : Imm12) : zextImm nnn = BitVec.ofNat 16 nnn.toNat := by
  rw [zextImm, BitVec.ofNat_toNat]

theorem effect_jp (nnn : Imm12) (s : State) :
    effect (.jp nnn) s = quietly { s with pc := BitVec.ofNat 16 nnn.toNat } := by
  rw [← zextImm_eq_ofNat]; rfl

/-- Settles O11: `decodeWord_jp` gives the word, and `effect_jp` both the next state and the report. -/
theorem jumpSetsPc : Obligations.JumpSetsPc := fun nnn s =>
  ⟨decodeWord_jp nnn, exec_of_quietly (effect_jp nnn s), report_of_quietly (effect_jp nnn s)⟩

/-! ### The skips on an immediate -/

theorem decodeWord_seImm (x : Nibble) (nn : Byte) :
    decodeWord (wordXNN 0x3#4 x nn) = some (.seImm x nn) := by
  simp only [decodeWord, fieldOp_wordXNN, fieldX_wordXNN, fieldNN_wordXNN]

theorem decodeWord_sneImm (x : Nibble) (nn : Byte) :
    decodeWord (wordXNN 0x4#4 x nn) = some (.sneImm x nn) := by
  simp only [decodeWord, fieldOp_wordXNN, fieldX_wordXNN, fieldNN_wordXNN]

/-- A skip on a test is the skip on the condition it decides (R122). -/
theorem State.skipIf_eq_of_iff {c : Bool} {p : Prop} [Decidable p] (h : c = true ↔ p) (s : State) :
    s.skipIf c = { s with pc := if p then s.pc + 4#16 else s.pc + 2#16 } := by
  simp only [State.skipIf, h]

theorem effect_seImm (x : Nibble) (nn : Byte) (s : State) : effect (.seImm x nn) s =
    quietly { s with pc := if s.reg x = nn then s.pc + 4#16 else s.pc + 2#16 } :=
  congrArg quietly (State.skipIf_eq_of_iff beq_iff_eq s)

theorem effect_sneImm (x : Nibble) (nn : Byte) (s : State) : effect (.sneImm x nn) s =
    quietly { s with pc := if s.reg x ≠ nn then s.pc + 4#16 else s.pc + 2#16 } :=
  congrArg quietly (State.skipIf_eq_of_iff bne_iff_ne s)

/-- Settles O18: both instructions are skips with nothing to report, on the tests that decide `V[x] = nn`
and `V[x] ≠ nn` (`effect_seImm`, `effect_sneImm`). -/
theorem skipsOnImmediate : Obligations.SkipsOnImmediate := fun x nn s =>
  ⟨decodeWord_seImm x nn, decodeWord_sneImm x nn,
    exec_of_quietly (effect_seImm x nn s), exec_of_quietly (effect_sneImm x nn s),
    report_of_quietly (effect_seImm x nn s), report_of_quietly (effect_sneImm x nn s)⟩

end Sys2Proof.Machine

/-! ## The ALU (42_alu.md R161, R162) -/

namespace Sys2Proof.Machine

/-! ### LD and ADD with an immediate -/

theorem decodeWord_ldImm (x : Nibble) (nn : Byte) :
    decodeWord (wordXNN 0x6#4 x nn) = some (.ldImm x nn) := by
  simp only [decodeWord, fieldOp_wordXNN, fieldX_wordXNN, fieldNN_wordXNN]

theorem decodeWord_addImm (x : Nibble) (nn : Byte) :
    decodeWord (wordXNN 0x7#4 x nn) = some (.addImm x nn) := by
  simp only [decodeWord, fieldOp_wordXNN, fieldX_wordXNN, fieldNN_wordXNN]

/-- The sum of two bytes is their exact sum mod 256. -/
theorem byte_add_eq_ofNat (a b : Byte) : a + b = BitVec.ofNat 8 ((a.toNat + b.toNat) % 256) :=
  BitVec.eq_of_toNat_eq (by rw [BitVec.toNat_add, BitVec.toNat_ofNat, Nat.mod_mod])

theorem effect_ldImm (x : Nibble) (nn : Byte) (s : State) : effect (.ldImm x nn) s =
    quietly { s with V := s.V.set x.toNat nn x.isLt, pc := s.pc + 2#16 } := rfl

theorem effect_addImm (x : Nibble) (nn : Byte) (s : State) : effect (.addImm x nn) s =
    quietly { s with
      V := s.V.set x.toNat (BitVec.ofNat 8 (((s.reg x).toNat + nn.toNat) % 256)) x.isLt
      pc := s.pc + 2#16 } := by
  rw [← byte_add_eq_ofNat]; rfl

/-- Settles O21: both instructions write `V[x]` and advance with nothing to report (`effect_ldImm`,
`effect_addImm`); that 7xnn wraps is `byte_add_eq_ofNat`. -/
theorem immediateFormsWriteVx : Obligations.ImmediateFormsWriteVx := fun x nn s =>
  ⟨decodeWord_ldImm x nn, decodeWord_addImm x nn,
    exec_of_quietly (effect_ldImm x nn s), exec_of_quietly (effect_addImm x nn s),
    report_of_quietly (effect_ldImm x nn s), report_of_quietly (effect_addImm x nn s)⟩

end Sys2Proof.Machine

/-! ## The index register (43_index_memory.md R190, R192) -/

namespace Sys2Proof.Machine

theorem decodeWord_ldI (nnn : Imm12) : decodeWord (wordNNN 0xA#4 nnn) = some (.ldI nnn) := by
  simp only [decodeWord, fieldOp_wordNNN, fieldNNN_wordNNN]

theorem decodeWord_familyF {w : Word} (h : fieldOp w = 0xF#4) : decodeWord w = decodeFamilyF w := by
  simp only [decodeWord, h]

theorem decodeWord_ldF (x : Nibble) : decodeWord (wordXNN 0xF#4 x 0x29#8) = some (.ldF x) := by
  rw [decodeWord_familyF (fieldOp_wordXNN _ _ _)]
  simp only [decodeFamilyF, fieldX_wordXNN, fieldNN_wordXNN]

theorem lowNibble_toNat (v : Byte) : (lowNibble v).toNat = v.toNat % 16 := by
  rw [lowNibble, BitVec.extractLsb'_toNat, Nat.shiftRight_zero]

/-- Five times the low nibble as the machine computes it in 16 bits is the number the spec states (R192). -/
theorem glyphAddress_eq_ofNat (v : Byte) : glyphAddress v = BitVec.ofNat 16 (v.toNat % 16 * 5) := by
  rw [glyphAddress, ← lowNibble_toNat, BitVec.ofNat_mul, BitVec.ofNat_toNat]

theorem effect_ldI (nnn : Imm12) (s : State) : effect (.ldI nnn) s =
    quietly { s with I := BitVec.ofNat 16 nnn.toNat, pc := s.pc + 2#16 } := by
  rw [← zextImm_eq_ofNat]; rfl

theorem effect_ldF (x : Nibble) (s : State) : effect (.ldF x) s =
    quietly { s with I := BitVec.ofNat 16 ((s.reg x).toNat % 16 * 5), pc := s.pc + 2#16 } := by
  rw [← glyphAddress_eq_ofNat]; rfl

/-- Settles O27: both instructions load `I` and advance with nothing to report (`effect_ldI`, `effect_ldF`);
that Fx29 loads five times the low nibble of `V[x]` is `glyphAddress_eq_ofNat`. -/
theorem indexLoads : Obligations.IndexLoads := fun nnn x s =>
  ⟨decodeWord_ldI nnn, decodeWord_ldF x,
    exec_of_quietly (effect_ldI nnn s), exec_of_quietly (effect_ldF x s),
    report_of_quietly (effect_ldI nnn s), report_of_quietly (effect_ldF x s)⟩

end Sys2Proof.Machine

/-! ## The display (44_display.md R212) -/

namespace Sys2Proof.Machine

@[simp] theorem flagByte_true : flagByte true = 1#8 := rfl
@[simp] theorem flagByte_false : flagByte false = 0#8 := rfl

theorem effect_drw (x y n : Nibble) (s : State) : effect (.drw x y n) s = runDrw x y n s := rfl

theorem effect_drw_fb (x y n : Nibble) (s : State) :
    (effect (.drw x y n) s).state.fb = (spriteCanvas x y n s).1 := rfl

theorem effect_drw_flag (x y n : Nibble) (s : State) :
    (effect (.drw x y n) s).state.reg flagReg = flagByte (spriteCanvas x y n s).2 := by
  rw [effect_drw, runDrw, State.advance_reg, State.reg_setReg_self]

/-- A cell that was on is off after the sprite is drawn exactly when the sprite sets its pixel. -/
theorem spriteCanvas_turns_off_iff (x y n : Nibble) (s : State) {r : Fin 32} {c : Fin 64}
    (hon : Framebuffer.cell s.fb r c = true) :
    Framebuffer.cell (spriteCanvas x y n s).1 r c = false ↔
      spritePixel s.mem s.I.toNat (s.reg x) (s.reg y) n.toNat r c := by
  simp only [(spriteCanvas_spec x y n s).1, hon, Bool.true_xor, Bool.not_eq_false', decide_eq_true_eq]

/-- A collision is a cell that was on being turned off (R212). -/
theorem spriteCanvas_collides_iff (x y n : Nibble) (s : State) :
    (spriteCanvas x y n s).2 = true ↔ ∃ r c, Framebuffer.cell s.fb r c = true ∧
      Framebuffer.cell (spriteCanvas x y n s).1 r c = false := by
  rw [(spriteCanvas_spec x y n s).2]
  exact exists₂_congr fun _ _ => and_congr_right fun hon => (spriteCanvas_turns_off_iff x y n s hon).symm

/-- Settles O35: VF is the collision of the sprite's canvas (`effect_drw_flag`), and the canvas collides
exactly when a cell that was on is off in it (`spriteCanvas_collides_iff`). -/
theorem collisionIsACellTurnedOff : Obligations.CollisionIsACellTurnedOff := by
  intro x y n s
  refine ⟨_, exec_eq _ s, ?_⟩
  rw [effect_drw_fb, effect_drw_flag, ← spriteCanvas_collides_iff x y n s]
  refine ⟨fun hit => by rw [hit, flagByte_true], fun hkept => ?_⟩
  have hmiss : (spriteCanvas x y n s).2 = false := by
    rw [← Bool.not_eq_true, spriteCanvas_collides_iff]
    rintro ⟨r, c, hon, hoff⟩
    exact Bool.false_ne_true (hoff.symm.trans (hkept r c hon))
  rw [hmiss, flagByte_false]

end Sys2Proof.Machine

/-! ## Timers and the random source (45_keys_timers_rng.md R236, R238, R239) -/

namespace Sys2Proof.Machine

/-! ### The tick -/

/-- A countdown is the subtraction of 1 that stops at 0 (R236). -/
theorem countDown_toNat (t : Byte) : (countDown t).toNat = t.toNat - 1 := by
  unfold countDown
  split
  · next h => rw [h]; rfl
  · next h =>
    have hpos : 1 ≤ t.toNat := Nat.one_le_iff_ne_zero.mpr fun h0 => h (BitVec.eq_of_toNat_eq h0)
    exact BitVec.toNat_sub_of_le (BitVec.le_def.mpr hpos)

/-- Settles O43: `tick` counts both timers down, and a countdown takes 1 from a timer above 0
(`countDown_toNat`). -/
theorem tickCountsBothTimersDown : Obligations.TickCountsBothTimersDown := fun s =>
  ⟨s.tick, rfl, rfl, countDown_toNat s.DT, countDown_toNat s.ST⟩

/-! ### RND -/

theorem decodeWord_rnd (x : Nibble) (nn : Byte) :
    decodeWord (wordXNN 0xC#4 x nn) = some (.rnd x nn) := by
  simp only [decodeWord, fieldOp_wordXNN, fieldX_wordXNN, fieldNN_wordXNN]

/-- The random byte is the seed mod 256 (R239). -/
theorem randomByte_eq_ofNat (seed : Seed) : randomByte seed = BitVec.ofNat 8 (seed.toNat % 256) := by
  apply BitVec.eq_of_toNat_eq
  rw [randomByte, BitVec.extractLsb'_toNat, Nat.shiftRight_zero, BitVec.toNat_ofNat, Nat.mod_mod]

theorem effect_rnd (x : Nibble) (nn : Byte) (s : State) : effect (.rnd x nn) s =
    quietly { s with
      seed := params.rngNext s.seed
      V := s.V.set x.toNat (BitVec.ofNat 8 ((params.rngNext s.seed).toNat % 256) &&& nn) x.isLt
      pc := s.pc + 2#16 } := by
  rw [← randomByte_eq_ofNat]; rfl

/-! ### What leaves the seed -/

theorem runCall_seed (nnn : Imm12) (s : State) : (runCall nnn s).state.seed = s.seed := by
  unfold runCall
  split <;> rfl

theorem runRet_seed (s : State) : (runRet s).state.seed = s.seed := by
  unfold runRet
  split <;> rfl

theorem runLdVxK_seed (choice : Vector Bool 16 → Nibble) (x : Nibble) (s : State) :
    (runLdVxK choice x s).state.seed = s.seed := by
  unfold runLdVxK
  split <;> rfl

/-- Every instruction but RND leaves the seed (R238). -/
theorem effectUnder_seed (cfg : Config) {i : Instr} (hi : ∀ x nn, i ≠ .rnd x nn) (s : State) :
    (effectUnder cfg i s).state.seed = s.seed := by
  cases i with
  | rnd x nn => exact absurd rfl (hi x nn)
  | call nnn => exact runCall_seed nnn s
  | ret => exact runRet_seed s
  | ldVxK x => exact runLdVxK_seed cfg.keyWaitChoice x s
  | ldVxI x => exact State.setRegsFrom_seed _ _ s
  | _ => rfl

theorem exec_seed {i : Instr} {s t : State} (h : exec i s = .next t) (hi : ∀ x nn, i ≠ .rnd x nn) :
    t.seed = s.seed := by
  rw [(exec_next_iff i s t).mp h]
  exact effectUnder_seed params hi s

theorem load_seed (s : State) (bytes : List Byte) : (s.load bytes).1.seed = s.seed := by
  unfold State.load
  split <;> rfl

/-- Every operation but `reset` and `step` leaves the seed (R238). -/
theorem operateUnder_seed {cfg : Config} {op : Operation} {s t : State}
    (hreset : ∀ seedIn, op ≠ .reset seedIn) (hstep : op ≠ .step)
    (h : s.operateUnder cfg op = .next t) : t.seed = s.seed := by
  cases op with
  | reset seedIn => exact absurd rfl (hreset seedIn)
  | load bytes => cases h; exact load_seed s bytes
  | step => exact absurd rfl hstep
  | tick => cases h; rfl
  | setKey k b =>
    obtain ⟨-, rfl⟩ := operateUnder_setKey_next h
    rfl
  | clearDraw => cases h; rfl

/-- Settles O41: `effect_rnd` gives RND's next state and report, and `exec_seed` and `operateUnder_seed`
that nothing else but `reset` and `step` writes the seed. -/
theorem randomAdvancesTheSeedOnce : Obligations.RandomAdvancesTheSeedOnce :=
  ⟨fun x nn s => ⟨decodeWord_rnd x nn, exec_of_quietly (effect_rnd x nn s),
      report_of_quietly (effect_rnd x nn s)⟩,
    fun _ _ _ => exec_seed, fun _ _ _ => operateUnder_seed⟩

end Sys2Proof.Machine

/-! ## The stack anomalies (60_exceptions.md R262, R263, R270)

What anomaly an instruction can report is said once (`report_anomaly_cases`): the two anomalies of the
stack have one row each. -/

namespace Sys2Proof.Machine

/-! ### Effects of an absorbed anomaly -/

theorem exec_of_absorb {i : Instr} {s : State} {a : Anomaly} (h : effect i s = absorb a s) :
    exec i s = .next { s with pc := s.pc + 2#16 } := by
  rw [exec_eq, h, absorb, State.advance]

theorem report_of_absorb {i : Instr} {s : State} {a : Anomaly} (h : effect i s = absorb a s) :
    report i s = ⟨false, a⟩ := by
  rw [report, h, absorb]

/-! ### The branches of CALL and RET -/

theorem runCall_of_room (nnn : Imm12) {s : State} (h : s.sp.val < 16) :
    runCall nnn s = quietly ((s.push (s.pc + 2#16) h).jumpTo (zextImm nnn)) := dif_pos h

theorem runCall_of_full (nnn : Imm12) {s : State} (h : s.sp.val = 16) :
    runCall nnn s = absorb .stackOverflow s := dif_neg h.not_lt

theorem runRet_of_nonempty {s : State} (h : 0 < s.sp.val) :
    runRet s = quietly (s.pop.jumpTo s.top) := if_pos h

theorem runRet_of_empty {s : State} (h : s.sp.val = 0) :
    runRet s = absorb .stackUnderflow s := if_neg h.not_gt

/-! ### Which anomaly an instruction reports -/

theorem boundsAnomaly_cases (violated : Bool) :
    boundsAnomaly violated = .none ∨ boundsAnomaly violated = .memoryBoundsViolation := by
  cases violated with
  | false => exact .inl rfl
  | true => exact .inr rfl

theorem runLdVxK_report (choice : Vector Bool 16 → Nibble) (x : Nibble) (s : State) :
    (runLdVxK choice x s).report = Report.quiet := by
  unfold runLdVxK
  split <;> rfl

/-- An instruction reports no anomaly, a bounds violation, an overflow as a CALL on a full stack, or an
underflow as a RET on an empty one. -/
theorem report_anomaly_cases (i : Instr) (s : State) :
    ((report i s).anomaly = .none ∨ (report i s).anomaly = .memoryBoundsViolation) ∨
    ((report i s).anomaly = .stackOverflow ∧ ∃ nnn, i = .call nnn ∧ s.sp.val = 16) ∨
    ((report i s).anomaly = .stackUnderflow ∧ i = .ret ∧ s.sp.val = 0) := by
  unfold report effect
  cases i with
  | call nnn =>
    rw [effectUnder]
    obtain hroom | hfull : s.sp.val < 16 ∨ s.sp.val = 16 := by omega
    · rw [runCall_of_room nnn hroom]; exact .inl (.inl rfl)
    · rw [runCall_of_full nnn hfull]; exact .inr (.inl ⟨rfl, nnn, rfl, hfull⟩)
  | ret =>
    rw [effectUnder]
    obtain hempty | hslot := Nat.eq_zero_or_pos s.sp.val
    · rw [runRet_of_empty hempty]; exact .inr (.inr ⟨rfl, rfl, hempty⟩)
    · rw [runRet_of_nonempty hslot]; exact .inl (.inl rfl)
  | ldVxK x => exact .inl (.inl (congrArg Report.anomaly (runLdVxK_report params.keyWaitChoice x s)))
  | drw | ldB | ldIVx | ldVxI => exact .inl (boundsAnomaly_cases _)
  | _ => exact .inl (.inl rfl)

theorem stackOverflow_only_by_call {i : Instr} {s : State} (h : (report i s).anomaly = .stackOverflow) :
    ∃ nnn, i = .call nnn ∧ s.sp.val = 16 := by
  simpa [h] using report_anomaly_cases i s

theorem stackUnderflow_only_by_ret {i : Instr} {s : State} (h : (report i s).anomaly = .stackUnderflow) :
    i = .ret ∧ s.sp.val = 0 := by
  simpa [h] using report_anomaly_cases i s

/-- Settles O14: a CALL on a full stack is an absorbed overflow (`runCall_of_full`), and of the anomalies an
instruction can report only that one is an overflow (`stackOverflow_only_by_call`). -/
theorem callOnFullStackIsDropped : Obligations.CallOnFullStackIsDropped :=
  ⟨fun nnn _ hfull => ⟨exec_of_absorb (runCall_of_full nnn hfull), report_of_absorb (runCall_of_full nnn hfull)⟩,
    fun _ _ => stackOverflow_only_by_call⟩

/-- Settles O16: a RET on an empty stack is an absorbed underflow (`runRet_of_empty`), and of the anomalies an
instruction can report only that one is an underflow (`stackUnderflow_only_by_ret`). -/
theorem retOnEmptyStackIsDropped : Obligations.RetOnEmptyStackIsDropped :=
  ⟨fun _ hempty => ⟨exec_of_absorb (runRet_of_empty hempty), report_of_absorb (runRet_of_empty hempty)⟩,
    fun _ _ => stackUnderflow_only_by_ret⟩

end Sys2Proof.Machine

/-! ## Decoding and encoding (30_encoding.md R91 to R97) -/

namespace Sys2Proof.Machine

/-! ### Decoding an encoded instruction -/

theorem decodeWord_family8 {w : Word} (h : fieldOp w = 0x8#4) : decodeWord w = decodeFamily8 w := by
  simp only [decodeWord, h]

theorem decodeWord_familyE {w : Word} (h : fieldOp w = 0xE#4) : decodeWord w = decodeFamilyE w := by
  simp only [decodeWord, h]

/-- No field is dropped: every well-formed instruction comes back from its word (R93), format by format. -/
theorem decodeWord_encode {i : Instr} (h : i.wf = true) : decodeWord (encode i) = some i := by
  cases i with
  | cls | ret => rfl
  | sys nnn =>
    obtain ⟨hcls, hret⟩ : nnn ≠ 0x0E0#12 ∧ nnn ≠ 0x0EE#12 := by simpa [Instr.wf] using h
    exact decodeWord_sys hcls hret
  | jp nnn | call nnn | ldI nnn | jpV0 nnn =>
    simp only [encode, decodeWord, fieldOp_wordNNN, fieldNNN_wordNNN]
  | seImm x nn | sneImm x nn | ldImm x nn | addImm x nn | rnd x nn =>
    simp only [encode, decodeWord, fieldOp_wordXNN, fieldX_wordXNN, fieldNN_wordXNN]
  | seReg x y | sneReg x y | drw x y n =>
    simp only [encode, decodeWord, fieldOp_wordXYN, fieldX_wordXYN, fieldY_wordXYN, fieldN_wordXYN, if_true]
  | ldReg x y | orReg x y | andReg x y | xorReg x y | addReg x y | sub x y | shr x y | subn x y | shl x y =>
    rw [encode, decodeWord_family8 (fieldOp_wordXYN _ _ _ _)]
    simp only [decodeFamily8, fieldX_wordXYN, fieldY_wordXYN, fieldN_wordXYN]
  | skp x | sknp x =>
    rw [encode, decodeWord_familyE (fieldOp_wordXNN _ _ _)]
    simp only [decodeFamilyE, fieldX_wordXNN, fieldNN_wordXNN]
  | ldVxDt x | ldVxK x | ldDtVx x | ldStVx x | addI x | ldF x | ldB x | ldIVx x | ldVxI x =>
    rw [encode, decodeWord_familyF (fieldOp_wordXNN _ _ _)]
    simp only [decodeFamilyF, fieldX_wordXNN, fieldNN_wordXNN]

/-- Decoding a word's two bytes decodes the word and leaves what follows (R63, R90). -/
theorem decode_bytesOfWord {w : Word} {i : Instr} (h : decodeWord w = some i) (rest : List Byte) :
    decode (bytesOfWord w ++ rest) = .instr i rest := by
  simp only [bytesOfWord, List.cons_append, List.nil_append, decode, wordOfBytes_bytes, h]

theorem decodeTableWord_toNat {w : Word} {i : Instr} (h : decodeWord w = some i) :
    decodeTableWord 16 w.toNat = some i := by
  have hb := decode_bytesOfWord h []
  rw [List.append_nil] at hb
  rw [decodeTableWord, tableWord_toNat, hb]

/-- Settles O2: `decodeWord_encode` is the round trip on words, and the decoder on bytes and on table words
is the one on words (`decode_bytesOfWord`, `decodeTableWord_toNat`). -/
theorem decodeOfEncodeIsTheInstruction : Obligations.DecodeOfEncodeIsTheInstruction := fun _ rest hwf =>
  have hd := decodeWord_encode hwf
  ⟨hd, decode_bytesOfWord hd rest, decodeTableWord_toNat hd⟩

/-- Settles O1: each word is put through the decode procedure. -/
theorem specWordsDecodeAsListed : Obligations.SpecWordsDecodeAsListed := by
  unfold Obligations.SpecWordsDecodeAsListed
  decide

/-! ### Encoding a decoded word -/

/-- A nibble is one of sixteen values. -/
theorem nibble_cases (n : Nibble) : n ∈ [0x0#4, 0x1#4, 0x2#4, 0x3#4, 0x4#4, 0x5#4, 0x6#4, 0x7#4, 0x8#4,
    0x9#4, 0xA#4, 0xB#4, 0xC#4, 0xD#4, 0xE#4, 0xF#4] := by
  revert n; decide

theorem wordNNN_of_fieldOp {w : Word} {op : Nibble} (h : fieldOp w = op) : wordNNN op (fieldNNN w) = w :=
  h ▸ word_eq_wordNNN w

theorem wordXNN_of_fields {w : Word} {op : Nibble} (h : fieldOp w = op) :
    wordXNN op (fieldX w) (fieldNN w) = w :=
  h ▸ word_eq_wordXNN w

theorem wordXYN_of_fields {w : Word} {op : Nibble} (h : fieldOp w = op) :
    wordXYN op (fieldX w) (fieldY w) (fieldN w) = w :=
  h ▸ word_eq_wordXYN w

theorem encode_decodeFamily0 {w : Word} (h : fieldOp w = 0x0#4) :
    (decodeFamily0 w).wf = true ∧ encode (decodeFamily0 w) = w := by
  have hw := wordNNN_of_fieldOp h
  unfold decodeFamily0
  split
  · next hcls => exact ⟨rfl, hcls.symm⟩
  · next hcls =>
    split
    · next hret => exact ⟨rfl, hret.symm⟩
    · next hret =>
      have hc : fieldNNN w ≠ 0x0E0#12 := fun e => hcls (by rw [← hw, e]; rfl)
      have hr : fieldNNN w ≠ 0x0EE#12 := fun e => hret (by rw [← hw, e]; rfl)
      exact ⟨by simp [Instr.wf, hc, hr], hw⟩

theorem encode_decodeFamily8 {w : Word} {i : Instr} (h : fieldOp w = 0x8#4) (hd : decodeFamily8 w = some i) :
    i.wf = true ∧ encode i = w := by
  have hw := wordXYN_of_fields h
  unfold decodeFamily8 at hd
  split at hd <;> cases hd <;> next hn => rw [hn] at hw; exact ⟨rfl, hw⟩

theorem encode_decodeFamilyE {w : Word} {i : Instr} (h : fieldOp w = 0xE#4) (hd : decodeFamilyE w = some i) :
    i.wf = true ∧ encode i = w := by
  have hw := wordXNN_of_fields h
  unfold decodeFamilyE at hd
  split at hd <;> cases hd <;> next hn => rw [hn] at hw; exact ⟨rfl, hw⟩

theorem encode_decodeFamilyF {w : Word} {i : Instr} (h : fieldOp w = 0xF#4) (hd : decodeFamilyF w = some i) :
    i.wf = true ∧ encode i = w := by
  have hw := wordXNN_of_fields h
  unfold decodeFamilyF at hd
  split at hd <;> cases hd <;> next hn => rw [hn] at hw; exact ⟨rfl, hw⟩

/-- Families 5 and 9 are the words with low nibble 0. -/
theorem wordXYN_of_fieldN_zero {w : Word} {op : Nibble} (h : fieldOp w = op) (hn : fieldN w = 0#4) :
    wordXYN op (fieldX w) (fieldY w) 0x0#4 = w :=
  hn ▸ wordXYN_of_fields h

theorem encode_of_decodeWord {w : Word} {i : Instr} (hd : decodeWord w = some i) :
    i.wf = true ∧ encode i = w := by
  unfold decodeWord at hd
  split at hd
  case h_1 h => cases hd; exact encode_decodeFamily0 h
  case h_6 h | h_10 h =>
    split at hd
    · next hn => cases hd; exact ⟨rfl, wordXYN_of_fieldN_zero h hn⟩
    · cases hd
  case h_9 h => exact encode_decodeFamily8 h hd
  case h_15 h => exact encode_decodeFamilyE h hd
  case h_16 h => exact encode_decodeFamilyF h hd
  case h_17 => cases hd
  case h_14 h => cases hd; exact ⟨rfl, wordXYN_of_fields h⟩
  case h_2 h | h_3 h | h_11 h | h_12 h => cases hd; exact ⟨rfl, wordNNN_of_fieldOp h⟩
  case h_4 h | h_5 h | h_7 h | h_8 h | h_13 h => cases hd; exact ⟨rfl, wordXNN_of_fields h⟩

/-- Settles O3: `encode_of_decodeWord`, family by family. -/
theorem encodeOfDecodeIsTheWord : Obligations.EncodeOfDecodeIsTheWord := fun _ _ => encode_of_decodeWord

/-! ### The words that are no instruction (R96) -/

theorem decodeFamily8_eq_none_iff (w : Word) : decodeFamily8 w = none ↔
    fieldN w ∈ [0x8#4, 0x9#4, 0xA#4, 0xB#4, 0xC#4, 0xD#4, 0xF#4] := by
  have hn := nibble_cases (fieldN w)
  unfold decodeFamily8
  split <;> simp_all

theorem decodeFamilyE_eq_none_iff (w : Word) : decodeFamilyE w = none ↔ fieldNN w ∉ [0x9E#8, 0xA1#8] := by
  unfold decodeFamilyE
  split <;> simp_all

theorem decodeFamilyF_eq_none_iff (w : Word) : decodeFamilyF w = none ↔ fieldNN w ∉
    [0x07#8, 0x0A#8, 0x15#8, 0x18#8, 0x1E#8, 0x29#8, 0x33#8, 0x55#8, 0x65#8] := by
  unfold decodeFamilyF
  split <;> simp_all

/-- Settles O5: the families with a selector reject by it (`decodeFamily8_eq_none_iff` and its like), 5 and 9
by the low nibble, and every other family accepts all its words. -/
theorem unrecognizedWordsAreExactlyThese : Obligations.UnrecognizedWordsAreExactlyThese := by
  intro w
  have hop := nibble_cases (fieldOp w)
  rw [← decodeFamily8_eq_none_iff, ← decodeFamilyE_eq_none_iff, ← decodeFamilyF_eq_none_iff]
  unfold decodeWord
  split <;> simp_all

end Sys2Proof.Machine

/-! ## The opcode map (30_encoding.md R95)

Every mask of the map keeps the family nibble, so only the rows of its family can select a word. In one
family the rows have one shape: the whole family, a low nibble each, or a low byte each. -/

namespace Sys2Proof.Machine

/-- The rows of the opcode map whose value is in a family. -/
def familyRows (op : Nibble) : List OpcodeRow := opcodeTable.filter (fieldOp ·.value == op)

/-- A row for the words of a family with a given low nibble. -/
def rowXY (op : Nibble) (p : Nibble × (Nibble → Nibble → Instr)) : OpcodeRow :=
  ⟨0xF00F#16, wordXYN op 0#4 0#4 p.1, fun w => p.2 (fieldX w) (fieldY w)⟩

/-- A row for the words of a family with a given low byte. -/
def rowX (op : Nibble) (p : Byte × (Nibble → Instr)) : OpcodeRow :=
  ⟨0xF0FF#16, wordXNN op 0#4 p.1, fun w => p.2 (fieldX w)⟩

theorem opcodeTable_masks_keep_fieldOp : opcodeTable.all (fieldOp ·.mask == 0xF#4) = true := rfl

theorem fieldOp_of_selects {r : OpcodeRow} (hr : r ∈ opcodeTable) {w : Word} (hs : r.selects w = true) :
    fieldOp r.value = fieldOp w := by
  have hmask : fieldOp r.mask = 0xF#4 :=
    beq_iff_eq.mp (List.all_eq_true.mp opcodeTable_masks_keep_fieldOp r hr)
  have hand : fieldOp (w &&& r.mask) = fieldOp w &&& fieldOp r.mask := BitVec.extractLsb'_and
  rw [← beq_iff_eq.mp hs, hand, hmask, nibble_and_ones]

theorem decodeByTable_eq_familyRows {w : Word} {op : Nibble} (h : fieldOp w = op) :
    decodeByTable w = ((familyRows op).find? (·.selects w)).map (·.build w) := by
  rw [decodeByTable, familyRows, List.find?_filter]
  congr 1
  refine List.find?_congr fun r hr => Bool.eq_iff_iff.mpr ?_
  rw [decide_eq_true_eq, beq_iff_eq]
  exact ⟨fun hs => ⟨(fieldOp_of_selects hr hs).trans h, hs⟩, And.right⟩

theorem rowXY_selects {w : Word} {op : Nibble} (h : fieldOp w = op) (p : Nibble × (Nibble → Nibble → Instr)) :
    (rowXY op p).selects w = (fieldN w == p.1) := by
  rw [OpcodeRow.selects, rowXY, mask_F00F, h, Bool.eq_iff_iff, beq_iff_eq, beq_iff_eq]
  exact ⟨fun e => by simpa using congrArg fieldN e, fun e => by rw [e]⟩

theorem rowX_selects {w : Word} {op : Nibble} (h : fieldOp w = op) (p : Byte × (Nibble → Instr)) :
    (rowX op p).selects w = (fieldNN w == p.1) := by
  rw [OpcodeRow.selects, rowX, mask_F0FF, h, Bool.eq_iff_iff, beq_iff_eq, beq_iff_eq]
  exact ⟨fun e => by simpa using congrArg fieldNN e, fun e => by rw [e]⟩

theorem selects_whole {w : Word} {op : Nibble} (h : fieldOp w = op) (build : Word → Instr) :
    OpcodeRow.selects ⟨0xF000#16, wordXYN op 0#4 0#4 0#4, build⟩ w = true := by
  rw [OpcodeRow.selects, mask_F000, h, beq_self_eq_true]

/-- A family of one row that keeps only the family nibble. -/
theorem decodeByTable_whole {w : Word} {op : Nibble} {build : Word → Instr} (h : fieldOp w = op)
    (hrows : familyRows op = [⟨0xF000#16, wordXYN op 0#4 0#4 0#4, build⟩]) : decodeByTable w = some (build w) := by
  rw [decodeByTable_eq_familyRows h, hrows, List.find?_singleton, if_pos (selects_whole h build), Option.map_some]

/-- A family that selects by the low nibble. -/
theorem decodeByTable_xy {w : Word} {op : Nibble} (h : fieldOp w = op)
    (sel : List (Nibble × (Nibble → Nibble → Instr))) (hrows : familyRows op = sel.map (rowXY op)) :
    decodeByTable w = (sel.find? (fieldN w == ·.1)).map fun p => p.2 (fieldX w) (fieldY w) := by
  rw [decodeByTable_eq_familyRows h, hrows, List.find?_map, Option.map_map]
  simp only [Function.comp_def, rowXY_selects h]; rfl

/-- A family that selects by the low byte. -/
theorem decodeByTable_x {w : Word} {op : Nibble} (h : fieldOp w = op)
    (sel : List (Byte × (Nibble → Instr))) (hrows : familyRows op = sel.map (rowX op)) :
    decodeByTable w = (sel.find? (fieldNN w == ·.1)).map fun p => p.2 (fieldX w) := by
  rw [decodeByTable_eq_familyRows h, hrows, List.find?_map, Option.map_map]
  simp only [Function.comp_def, rowX_selects h]; rfl

/-- Family 0: the rows of CLS and RET stand before the one of SYS. -/
theorem decodeByTable_family0 {w : Word} (h : fieldOp w = 0x0#4) : decodeByTable w = some (decodeFamily0 w) := by
  have hrows : familyRows 0x0#4 = [⟨0xFFFF#16, 0x00E0#16, fun _ => .cls⟩, ⟨0xFFFF#16, 0x00EE#16, fun _ => .ret⟩,
      ⟨0xF000#16, wordXYN 0x0#4 0#4 0#4 0#4, fun w => .sys (fieldNNN w)⟩] := rfl
  have hs (v : Word) (build : Word → Instr) : OpcodeRow.selects ⟨0xFFFF#16, v, build⟩ w = (w == v) := by
    rw [OpcodeRow.selects, mask_FFFF]
  rw [decodeByTable_eq_familyRows h, hrows, decodeFamily0]
  simp only [List.find?_cons, hs, selects_whole h]
  split_ifs with hcls hret
  · rw [hcls, beq_self_eq_true, Option.map_some]
  · rw [hret, beq_self_eq_true]; rfl
  · rw [beq_false_of_ne hcls, beq_false_of_ne hret]; rfl

theorem decodeByTable_lowNibble_zero {w : Word} {op : Nibble} (h : fieldOp w = op) {c : Nibble → Nibble → Instr}
    (hrows : familyRows op = [(0#4, c)].map (rowXY op)) :
    decodeByTable w = if fieldN w = 0#4 then some (c (fieldX w) (fieldY w)) else none := by
  rw [decodeByTable_xy h _ hrows]
  split <;> simp [*]

theorem decodeByTable_family8 {w : Word} (h : fieldOp w = 0x8#4) : decodeByTable w = decodeFamily8 w := by
  rw [decodeByTable_xy h [(0x0, .ldReg), (0x1, .orReg), (0x2, .andReg), (0x3, .xorReg), (0x4, .addReg),
    (0x5, .sub), (0x6, .shr), (0x7, .subn), (0xE, .shl)] rfl]
  unfold decodeFamily8
  split <;> simp_all

theorem decodeByTable_familyE {w : Word} (h : fieldOp w = 0xE#4) : decodeByTable w = decodeFamilyE w := by
  rw [decodeByTable_x h [(0x9E, .skp), (0xA1, .sknp)] rfl]
  unfold decodeFamilyE
  split <;> simp_all

theorem decodeByTable_familyF {w : Word} (h : fieldOp w = 0xF#4) : decodeByTable w = decodeFamilyF w := by
  rw [decodeByTable_x h [(0x07, .ldVxDt), (0x0A, .ldVxK), (0x15, .ldDtVx), (0x18, .ldStVx), (0x1E, .addI),
    (0x29, .ldF), (0x33, .ldB), (0x55, .ldIVx), (0x65, .ldVxI)] rfl]
  unfold decodeFamilyF
  split <;> simp_all

/-- Settles O4: family by family the procedure and the map select by the same field. -/
theorem procedureAgreesWithOpcodeTable : Obligations.ProcedureAgreesWithOpcodeTable := by
  intro w
  symm
  unfold decodeWord
  split
  case h_1 h => exact decodeByTable_family0 h
  case h_6 h | h_10 h => exact decodeByTable_lowNibble_zero h rfl
  case h_9 h => exact decodeByTable_family8 h
  case h_15 h => exact decodeByTable_familyE h
  case h_16 h => exact decodeByTable_familyF h
  case h_17 => have := nibble_cases (fieldOp w); simp_all
  all_goals next h => exact decodeByTable_whole h rfl

end Sys2Proof.Machine

/-! ## The step and the program counter (40_step_cycle.md R120 to R122, 41_control_flow.md R140 to R147) -/

namespace Sys2Proof.Machine

/-! ### Fetch, decode, execute -/

/-- Settles O6: the fetched word is the one the statement computes (`fetchedWord_eq_ofNat`), and a step in range
runs what it decodes to (`step_decoded`, `stepReport_decoded`). -/
theorem stepRunsTheFetchedInstruction : Obligations.StepRunsTheFetchedInstruction := by
  intro s
  rw [← fetchedWord_eq_ofNat]
  exact ⟨fetch_in_range, fetch_out_of_range, fun i hpc hd => ⟨step_decoded hpc hd, stepReport_decoded hpc hd⟩⟩

theorem stepReport_out_of_range {s : State} (h : 4094 < s.pc.toNat) : stepReport s = none := by
  rw [stepReport, stepReportUnder, cycle_out_of_range params h, Option.map_none]

/-- A step in range has a next state and a report, whatever word is fetched (R7). -/
theorem step_completes {s : State} (h : s.pc.toNat ≤ 4094) :
    ∃ t r, step s = .next t ∧ stepReport s = some r := by
  cases hd : decodeWord (fetchedWord s) with
  | some i => exact ⟨_, _, (step_decoded h hd).trans (exec_eq i s), stepReport_decoded h hd⟩
  | none => exact ⟨_, _, step_unrecognized h hd, stepReport_unrecognized h hd⟩

/-- Settles O8: a step in range completes (`step_completes`), and one out of range faults, so none is refused. -/
theorem stepFaultsExactlyOutsideMemory : Obligations.StepFaultsExactlyOutsideMemory := by
  refine fun s => ⟨fun h => ⟨step_out_of_range h, stepReport_out_of_range h⟩, step_completes, fun r hr => ?_⟩
  rcases Nat.lt_or_ge 4094 s.pc.toNat with ho | hi
  · cases (step_out_of_range ho).symm.trans hr
  · obtain ⟨t, -, ht, -⟩ := step_completes hi
    cases ht.symm.trans hr

/-! ### Skips and JP V0 -/

theorem effect_seReg (x y : Nibble) (s : State) : effect (.seReg x y) s =
    quietly { s with pc := if s.reg x = s.reg y then s.pc + 4#16 else s.pc + 2#16 } :=
  congrArg quietly (State.skipIf_eq_of_iff beq_iff_eq s)

theorem effect_sneReg (x y : Nibble) (s : State) : effect (.sneReg x y) s =
    quietly { s with pc := if s.reg x ≠ s.reg y then s.pc + 4#16 else s.pc + 2#16 } :=
  congrArg quietly (State.skipIf_eq_of_iff bne_iff_ne s)

theorem effect_skp (x : Nibble) (s : State) : effect (.skp x) s = quietly { s with
    pc := if s.pressed (lowNibble (s.reg x)) then s.pc + 4#16 else s.pc + 2#16 } := rfl

theorem effect_sknp (x : Nibble) (s : State) : effect (.sknp x) s = quietly { s with
    pc := if s.pressed (lowNibble (s.reg x)) then s.pc + 2#16 else s.pc + 4#16 } := by
  change quietly (s.skipIf (!s.pressed (lowNibble (s.reg x)))) = _
  cases s.pressed (lowNibble (s.reg x)) <;> rfl

/-- The target of JP V0 is the exact sum, in 16 bits (R143). -/
theorem zextImm_add_zextByte (nnn : Imm12) (v : Byte) :
    zextImm nnn + zextByte v = BitVec.ofNat 16 (nnn.toNat + v.toNat) := by
  rw [zextImm, zextByte, BitVec.ofNat_add, BitVec.ofNat_toNat, BitVec.ofNat_toNat]

theorem effect_jpV0 (nnn : Imm12) (s : State) : effect (.jpV0 nnn) s =
    quietly { s with pc := BitVec.ofNat 16 (nnn.toNat + (s.reg 0#4).toNat) } := by
  rw [← zextImm_add_zextByte]; rfl

/-- Settles O12: `effect_jpV0`; 12 bits and 8 bits sum to at most 10FE. -/
theorem jumpWithOffsetAddsV0 : Obligations.JumpWithOffsetAddsV0 := fun nnn s =>
  ⟨exec_of_quietly (effect_jpV0 nnn s), by have := nnn.isLt; have := (s.reg 0#4).isLt; omega,
    report_of_quietly (effect_jpV0 nnn s)⟩

/-- A word of family 5 or 9 with another low nibble is no instruction (R96). -/
theorem decodeWord_of_nonzero_n {op x y n : Nibble} (hop : op = 0x5#4 ∨ op = 0x9#4) (hn : n ≠ 0#4) :
    decodeWord (wordXYN op x y n) = none := by
  rcases hop with rfl | rfl <;> simp only [decodeWord, fieldOp_wordXYN, fieldN_wordXYN, if_neg hn]

/-- Settles O19: both instructions are skips with nothing to report (`effect_seReg`, `effect_sneReg`); another
low nibble decodes to nothing (`decodeWord_of_nonzero_n`). -/
theorem skipsOnRegisters : Obligations.SkipsOnRegisters := fun x y s =>
  ⟨decodeWord_encode (i := .seReg x y) rfl, decodeWord_encode (i := .sneReg x y) rfl,
    fun _ hn => ⟨decodeWord_of_nonzero_n (.inl rfl) hn, decodeWord_of_nonzero_n (.inr rfl) hn⟩,
    exec_of_quietly (effect_seReg x y s), exec_of_quietly (effect_sneReg x y s),
    report_of_quietly (effect_seReg x y s), report_of_quietly (effect_sneReg x y s)⟩

/-- Settles O37: the key tested is that of the low nibble (`lowNibble_toNat`), and both instructions are skips on
it with nothing to report (`effect_skp`, `effect_sknp`). -/
theorem skipsOnKeys : Obligations.SkipsOnKeys := by
  intro x k s hk
  obtain rfl : k = lowNibble (s.reg x) := BitVec.eq_of_toNat_eq (hk.trans (lowNibble_toNat _).symm)
  exact ⟨exec_of_quietly (effect_skp x s), exec_of_quietly (effect_sknp x s),
    report_of_quietly (effect_skp x s), report_of_quietly (effect_sknp x s)⟩

/-! ### CALL and RET -/

theorem State.push_eq {s : State} {k : Fin 16} (hk : s.sp = k.castSucc) (ret : Word) (h : s.sp.val < 16) :
    s.push ret h = { s with stack := s.stack.set k.val ret k.isLt, sp := k.succ } := by
  cases s; cases hk; rfl

theorem State.pop_eq {s : State} {k : Fin 16} (hk : s.sp = k.succ) : s.pop = { s with sp := k.castSucc } := by
  cases s; cases hk; rfl

theorem State.top_eq {s : State} {k : Fin 16} (hk : s.sp = k.succ) : s.top = s.stack[k.val] := by
  cases s; cases hk; rfl

theorem effect_call_of_room (nnn : Imm12) {s : State} {k : Fin 16} (hk : s.sp = k.castSucc) :
    effect (.call nnn) s = quietly { s with
      stack := s.stack.set k.val (s.pc + 2#16) k.isLt, sp := k.succ, pc := BitVec.ofNat 16 nnn.toNat } := by
  have hroom : s.sp.val < 16 := by rw [hk]; exact k.isLt
  refine (runCall_of_room nnn hroom).trans ?_
  rw [State.push_eq hk, zextImm_eq_ofNat]; rfl

theorem effect_ret_of_nonempty {s : State} {k : Fin 16} (hk : s.sp = k.succ) :
    effect .ret s = quietly { s with sp := k.castSucc, pc := s.stack[k.val] } := by
  have hslot : 0 < s.sp.val := by rw [hk]; exact Nat.succ_pos _
  refine (runRet_of_nonempty hslot).trans ?_
  rw [State.pop_eq hk, State.top_eq hk]; rfl

/-- Settles O13: `effect_call_of_room`. -/
theorem callPushesTheReturnAddress : Obligations.CallPushesTheReturnAddress := fun nnn _ _ hk =>
  ⟨exec_of_quietly (effect_call_of_room nnn hk), report_of_quietly (effect_call_of_room nnn hk)⟩

/-- Settles O15: `effect_ret_of_nonempty`. -/
theorem retPopsTheReturnAddress : Obligations.RetPopsTheReturnAddress := fun _ _ hk =>
  ⟨exec_of_quietly (effect_ret_of_nonempty hk), report_of_quietly (effect_ret_of_nonempty hk)⟩

/-! ### Nested calls -/

theorem execAll_cons {i : Instr} {s t : State} (h : exec i s = .next t) (is : List Instr) :
    execAll (i :: is) s = execAll is t := by
  rw [execAll, h]

theorem execAll_append {is : List Instr} {s t : State} (h : execAll is s = .next t) (js : List Instr) :
    execAll (is ++ js) s = execAll js t := by
  induction is generalizing s with
  | nil => cases h; rfl
  | cons i is ih =>
    rw [execAll_cons (exec_eq i s)] at h
    rw [List.cons_append, execAll_cons (exec_eq i s), ih h]

/-- Calls that fit the stack and as many returns change `pc` and dead stack slots only: each inner nest returns
with the slot of the outer call as that call left it. -/
theorem execAll_calls_rets (targets : List Imm12) {s : State} (h : s.sp.val + targets.length ≤ 16) :
    ∃ stk : Vector Word 16,
      execAll (targets.map .call ++ List.replicate targets.length .ret) s =
        .next { s with pc := if targets.isEmpty then s.pc else s.pc + 2#16, stack := stk } ∧
      ∀ k : Fin 16, k.val < s.sp.val → stk[k.val] = s.stack[k.val] := by
  induction targets generalizing s with
  | nil => exact ⟨s.stack, rfl, fun _ _ => rfl⟩
  | cons nnn targets ih =>
    rw [List.length_cons] at h
    obtain ⟨k, hk⟩ : ∃ k : Fin 16, s.sp = k.castSucc := ⟨⟨s.sp.val, by omega⟩, rfl⟩
    have hkv : s.sp.val = k.val := congrArg Fin.val hk
    have hcall := exec_of_quietly (effect_call_of_room nnn hk)
    obtain ⟨stk, hinner, hlive⟩ := ih
      (s := { s with stack := s.stack.set k.val (s.pc + 2#16) k.isLt, sp := k.succ, pc := BitVec.ofNat 16 nnn.toNat })
      (by rw [Fin.val_succ]; omega)
    have hret : stk[k.val] = s.pc + 2#16 := (hlive k (Nat.lt_succ_self _)).trans (Vector.getElem_set_self ..)
    refine ⟨stk, ?_, fun j hj => ?_⟩
    · rw [List.length_cons, List.replicate_succ', List.map_cons, List.cons_append, ← List.append_assoc,
        execAll_cons hcall, execAll_append hinner,
        execAll_cons (exec_of_quietly (effect_ret_of_nonempty rfl)), hret, ← hk]
      rfl
    · exact (hlive j (by rw [Fin.val_succ]; omega)).trans (Vector.getElem_set_ne k.isLt j.isLt (by omega))

/-- Settles O17: `execAll_calls_rets`. -/
theorem nestedCallsReturn : Obligations.NestedCallsReturn := by
  intro targets s hfit
  obtain ⟨stk, hrun, hlive⟩ := execAll_calls_rets targets hfit
  exact ⟨_, hrun, rfl, rfl, hlive, fun _ _ => rfl, fun _ _ => rfl, rfl, rfl, rfl, rfl, rfl, rfl, rfl, rfl, rfl⟩

/-! ### The program counter of every instruction -/

theorem runCall_pc (nnn : Imm12) (s : State) : (runCall nnn s).state.pc =
    if s.sp.val < 16 then BitVec.ofNat 16 nnn.toNat else s.pc + 2#16 := by
  unfold runCall
  split
  · exact zextImm_eq_ofNat nnn
  · rfl

theorem runRet_pc (s : State) : (runRet s).state.pc =
    if 0 < s.sp.val then s.stack[s.sp.val - 1]'(by omega) else s.pc + 2#16 := by
  unfold runRet
  split <;> rfl

theorem runLdVxK_pc (choice : Vector Bool 16 → Nibble) (x : Nibble) (s : State) :
    (runLdVxK choice x s).state.pc = if ∃ k, s.pressed k = true then s.pc + 2#16 else s.pc := by
  simp only [← anyPressed_iff]
  unfold runLdVxK
  split <;> rfl

/-- The `pc` an instruction leaves under any parameters is the one of its class (R122). -/
theorem effectUnder_pc (cfg : Config) (i : Instr) (s : State) : (effectUnder cfg i s).state.pc = tablePc i s := by
  cases i with
  | jp nnn => exact zextImm_eq_ofNat nnn
  | jpV0 nnn => exact zextImm_add_zextByte nnn _
  | call nnn => exact runCall_pc nnn s
  | ret => exact runRet_pc s
  | seImm x nn => exact congrArg (·.state.pc) (effect_seImm x nn s)
  | sneImm x nn => exact congrArg (·.state.pc) (effect_sneImm x nn s)
  | seReg x y => exact congrArg (·.state.pc) (effect_seReg x y s)
  | sneReg x y => exact congrArg (·.state.pc) (effect_sneReg x y s)
  | sknp x => exact congrArg (·.state.pc) (effect_sknp x s)
  | ldVxK x => exact runLdVxK_pc cfg.keyWaitChoice x s
  | ldVxI x => exact congrArg (· + 2#16) (State.setRegsFrom_pc _ _ s)
  | _ => rfl

/-- Settles O10: `exec` always answers (`exec_eq`), and `effectUnder_pc` gives its `pc`. -/
theorem pcFollowsTheTable : Obligations.PcFollowsTheTable :=
  ⟨fun i s => ⟨_, exec_eq i s, effectUnder_pc params i s⟩, fun s => ⟨s.advance, rfl, rfl⟩⟩

theorem step_of_fetch {s : State} {w : Word} {i : Instr} (hf : s.fetch = some w) (hd : decodeWord w = some i) :
    step s = exec i s := by
  simp only [step, hf, hd]

/-- A state that steps to itself is where every run from it ends. -/
theorem run_of_step_self {M : Host.Core} {s : M.State} (h : M.step s = .next s) (n : Nat) : M.run n s = .next s := by
  induction n with
  | zero => rfl
  | succ n ih => rw [Host.Core.run, h]; exact ih

/-- Settles O55: a jump to the value `pc` has is a step to the same state (`run_of_step_self`). -/
theorem selfJumpIsAFixedPoint : Obligations.SelfJumpIsAFixedPoint := by
  intro s nnn n hpc _ hfetch
  have hstep : step s = .next s := by
    rw [step_of_fetch hfetch (decodeWord_jp nnn), exec_of_quietly (effect_jp nnn s), ← hpc]
  exact run_of_step_self (M := Sys2Proof.core) hstep n

end Sys2Proof.Machine

/-! ## What an instruction writes (10_state.md R20, R23) -/

namespace Sys2Proof.Machine

/-- The instructions of the row of V in R20's table that write no other element but `pc`. -/
def writesVOnly : Instr → Bool
  | .ldImm _ _ | .addImm _ _ | .ldReg _ _ | .orReg _ _ | .andReg _ _ | .xorReg _ _ | .addReg _ _ | .sub _ _
  | .shr _ _ | .subn _ _ | .shl _ _ | .ldVxDt _ | .ldVxK _ | .ldVxI _ => true
  | _ => false

/-- The column "written by" of R20: which elements an instruction may leave changed, and how the ones that
the invariant speaks of are written. -/
inductive Writes (s : State) : Instr → State → Prop
  | pc (i : Instr) (p : Word) : Writes s i { s with pc := p }
  | mem {i : Instr} (hi : ∃ x, i = .ldB x ∨ i = .ldIVx x) (a : Nat) (vs : List Byte) (p : Word) :
      Writes s i { s with mem := (storeBytes s.mem a vs).1, pc := p }
  | V {i : Instr} (hi : writesVOnly i = true) (V : Vector Byte 16) (p : Word) : Writes s i { s with V := V, pc := p }
  | I {i : Instr} (hi : (∃ nnn, i = .ldI nnn) ∨ ∃ x, i = .addI x ∨ i = .ldF x) (I p : Word) :
      Writes s i { s with I := I, pc := p }
  | call (nnn : Imm12) (h : s.sp.val < 16) (p : Word) :
      Writes s (.call nnn) { s.push (s.pc + 2#16) h with pc := p }
  | ret (p : Word) : Writes s .ret { s.pop with pc := p }
  | DT (x : Nibble) (v : Byte) (p : Word) : Writes s (.ldDtVx x) { s with DT := v, pc := p }
  | ST (x : Nibble) (v : Byte) (p : Word) : Writes s (.ldStVx x) { s with ST := v, pc := p }
  | cls (fb : Framebuffer) (d : Bool) (p : Word) : Writes s .cls { s with fb := fb, draw := d, pc := p }
  | drw (x y n : Nibble) (fb : Framebuffer) (d : Bool) (V : Vector Byte 16) (p : Word) :
      Writes s (.drw x y n) { s with fb := fb, draw := d, V := V, pc := p }
  | rnd (x : Nibble) (nn : Byte) (seed : Seed) (V : Vector Byte 16) (p : Word) :
      Writes s (.rnd x nn) { s with seed := seed, V := V, pc := p }

theorem runCall_writes (nnn : Imm12) (s : State) : Writes s (.call nnn) (runCall nnn s).state := by
  unfold runCall
  split
  · next h => exact .call nnn h _
  · exact .pc _ _

theorem runRet_writes (s : State) : Writes s .ret (runRet s).state := by
  unfold runRet
  split
  · exact .ret _
  · exact .pc _ _

theorem runLdVxK_writes (choice : Vector Bool 16 → Nibble) (x : Nibble) (s : State) :
    Writes s (.ldVxK x) (runLdVxK choice x s).state := by
  unfold runLdVxK
  split
  · exact .V rfl _ _
  · exact .pc _ s.pc

theorem runLdVxI_writes (x : Nibble) (s : State) : Writes s (.ldVxI x) (runLdVxI x s).state := by
  unfold runLdVxI
  obtain ⟨V, hV⟩ := State.setRegsFrom_frame 0 (loadBytes s.mem s.I.toNat (x.toNat + 1)).1 s
  rw [hV]
  exact .V rfl V _

/-- Under any parameters an instruction writes the elements of its row. -/
theorem effectUnder_writes (cfg : Config) (i : Instr) (s : State) : Writes s i (effectUnder cfg i s).state := by
  cases i with
  | call nnn => exact runCall_writes nnn s
  | ret => exact runRet_writes s
  | ldVxK x => exact runLdVxK_writes cfg.keyWaitChoice x s
  | ldVxI x => exact runLdVxI_writes x s
  | ldB x => exact .mem ⟨x, .inl rfl⟩ _ _ _
  | ldIVx x => exact .mem ⟨x, .inr rfl⟩ _ _ _
  | ldImm | addImm | ldReg | orReg | andReg | xorReg | addReg | sub | shr | subn | shl | ldVxDt =>
    exact .V rfl _ _
  | ldI nnn => exact .I (.inl ⟨nnn, rfl⟩) _ _
  | addI x => exact .I (.inr ⟨x, .inl rfl⟩) _ _
  | ldF x => exact .I (.inr ⟨x, .inr rfl⟩) _ _
  | ldDtVx x => exact .DT x _ _
  | ldStVx x => exact .ST x _ _
  | cls => exact .cls _ _ _
  | drw x y n => exact .drw x y n _ _ _ _
  | rnd x nn => exact .rnd x nn _ _ _
  | sys | jp | jpV0 | seImm | sneImm | seReg | sneReg | skp | sknp => exact .pc _ _

theorem exec_writes {i : Instr} {s t : State} (h : exec i s = .next t) : Writes s i t := by
  rw [(exec_next_iff i s t).mp h]
  exact effectUnder_writes params i s

/-- `writesVOnly` names instructions of the row of V. -/
theorem rowOfV_of_writesVOnly {i : Instr} (h : writesVOnly i = true) :
    (∃ x nn, i = .ldImm x nn ∨ i = .addImm x nn ∨ i = .rnd x nn) ∨
    (∃ x y, i = .ldReg x y ∨ i = .orReg x y ∨ i = .andReg x y ∨ i = .xorReg x y ∨ i = .addReg x y ∨
      i = .sub x y ∨ i = .shr x y ∨ i = .subn x y ∨ i = .shl x y) ∨
    (∃ x y n, i = .drw x y n) ∨ ∃ x, i = .ldVxDt x ∨ i = .ldVxK x ∨ i = .ldVxI x := by
  cases i <;> simp_all [writesVOnly]

/-- Settles O52: of the ways to write the state (`exec_writes`) only those of its row change an element. -/
theorem onlyTheirInstructionsWriteStateElements : Obligations.OnlyTheirInstructionsWriteStateElements := by
  intro i s t h
  cases exec_writes h with
  | V hi => simp [rowOfV_of_writesVOnly hi]
  | mem hi => simp [hi]
  | I hi => simp [hi]
  | _ => simp

/-! ### The flag register -/

/-- A write of one register changes no other. -/
theorem eq_of_V_set {s t : State} (x : Nibble) {r : Nibble} {v : Byte} (ht : t.V = s.V.set x.toNat v x.isLt)
    (hne : t.reg r ≠ s.reg r) : r = x := by
  have hreg : t.reg r = (s.setReg x v).reg r := by unfold State.reg; simp only [ht, State.setReg_V]
  by_contra h
  exact hne (hreg.trans (State.reg_setReg_ne s v h))

theorem runLdVxK_changed {choice : Vector Bool 16 → Nibble} {x r : Nibble} {s : State}
    (hne : (runLdVxK choice x s).state.reg r ≠ s.reg r) : r = x := by
  unfold runLdVxK at hne
  split at hne
  · exact eq_of_V_set x rfl hne
  · exact absurd rfl hne

/-- Fx65 loads `V[k]` for k up to x as far as memory goes, and no other register (R195). -/
theorem runLdVxI_reg (x k : Nibble) (s : State) : (runLdVxI x s).state.reg k =
    if k.toNat ≤ x.toNat ∧ s.I.toNat + k.toNat ≤ 4095 then s.mem.read (s.I.toNat + k.toNat) else s.reg k := by
  have hlen := loadBytes_length_le s.mem s.I.toNat (x.toNat + 1)
  refine (State.setRegsFrom_reg 0 _ s (by have := x.isLt; omega) k).trans ?_
  rw [if_pos (Nat.zero_le _), Nat.sub_zero, loadBytes_getElem?, apply_ite (Option.getD · (s.reg k))]
  simp only [Nat.lt_succ_iff, Option.getD_some, Option.getD_none]

theorem runLdVxI_changed {x r : Nibble} {s : State} (hne : (runLdVxI x s).state.reg r ≠ s.reg r) :
    r.toNat ≤ x.toNat := by
  by_contra h
  exact hne ((runLdVxI_reg x r s).trans (if_neg fun hr => h hr.1))

/-- Settles O53: VF is in V, so the instruction is one of the row of V; those with one destination change no other
register (`eq_of_V_set`), and Fx65 none beyond `x` (`runLdVxI_changed`). -/
theorem flagWriters : Obligations.FlagWriters := by
  intro i s t h hne
  obtain ⟨-, hrow, -⟩ := onlyTheirInstructionsWriteStateElements i s t h
  rw [(exec_next_iff i s t).mp h] at hne hrow
  have hV : (effect i s).state.V ≠ s.V := fun e => hne (by unfold State.reg; simp only [e])
  obtain ⟨x, nn, himm⟩ | ⟨x, y, hreg⟩ | hdrw | ⟨x, hfx⟩ := hrow hV
  · obtain rfl | rfl | rfl := himm <;> (obtain rfl := eq_of_V_set x rfl hne; simp)
  · obtain rfl | rfl | rfl | rfl | hflag := hreg
    case inr.inr.inr.inr => exact .inl ⟨x, y, hflag⟩
    all_goals obtain rfl := eq_of_V_set x rfl hne; simp
  · exact .inr (.inl hdrw)
  · obtain rfl | rfl | rfl := hfx
    · obtain rfl := eq_of_V_set x rfl hne; simp
    · obtain rfl := runLdVxK_changed hne; simp
    · have hle : 15 ≤ x.toNat := runLdVxI_changed hne
      obtain rfl : x = 0xF#4 := BitVec.eq_of_toNat_eq (show x.toNat = 15 by omega)
      simp

end Sys2Proof.Machine

/-! ## The invariant (10_state.md R25, R36, R38, 41_control_flow.md R142) -/

namespace Sys2Proof.Machine

/-! ### Canonical memory -/

theorem Memory.read_head (b : Nat) (w : Byte) (m : Memory) : Memory.read ((b, w) :: m) b = w := by
  rw [Memory.read_listed, if_pos rfl]

/-- The lowest listed address of a canonical memory reads differently from every memory listed above it only. -/
theorem Memory.head_le_of_agree {b b' : Nat} {w w' : Byte} {m m' : Memory} (h : Memory.wf ((b, w) :: m))
    (h' : Memory.wf ((b', w') :: m'))
    (hagree : ∀ a, a ≤ 4095 → Memory.read ((b, w) :: m) a = Memory.read ((b', w') :: m') a) : b' ≤ b := by
  obtain ⟨hb, hw⟩ := h.2 (b, w) (by simp)
  by_contra hlt
  refine hw ((Memory.read_head b w m).symm.trans ((hagree b hb).trans (Memory.read_below fun c hc => ?_)))
  rcases List.mem_cons.mp hc with rfl | hm
  · exact Nat.lt_of_not_le hlt
  · exact Nat.lt_trans (Nat.lt_of_not_le hlt) (Memory.wf_head h' c hm)

/-- A canonical memory that lists a cell does not read as the reset contents. -/
theorem Memory.eq_nil_of_agree {m : Memory} (h : m.wf) (hagree : ∀ a, a ≤ 4095 → m.read a = resetByte a) :
    m = [] := by
  cases m with
  | nil => rfl
  | cons c m =>
    obtain ⟨hb, hw⟩ := h.2 c (by simp)
    exact absurd ((Memory.read_head c.1 c.2 m).symm.trans (hagree c.1 hb)) hw

/-- Memories that agree with the same first cell in front agree, if they list higher addresses only. -/
theorem Memory.tails_agree {b : Nat} {w : Byte} {m m' : Memory} (h : Memory.wf ((b, w) :: m))
    (h' : Memory.wf ((b, w) :: m')) {a : Nat} (ha : Memory.read ((b, w) :: m) a = Memory.read ((b, w) :: m') a) :
    m.read a = m'.read a := by
  by_cases e : a = b
  · subst e
    rw [Memory.read_below (Memory.wf_head h), Memory.read_below (Memory.wf_head h')]
  · simpa only [Memory.read_listed, if_neg e] using ha

/-- Settles O56: by induction along both lists; the first cells are equal since neither address is above the
other (`Memory.head_le_of_agree`). -/
theorem canonicalMemoriesThatReadAlikeAreEqual : Obligations.CanonicalMemoriesThatReadAlikeAreEqual := by
  intro m
  induction m with
  | nil => exact fun m' _ h' hagree => (Memory.eq_nil_of_agree h' fun a ha => (hagree a ha).symm).symm
  | cons c m ih =>
    rintro (_ | ⟨⟨b', w'⟩, m'⟩) h h' hagree
    · exact Memory.eq_nil_of_agree h hagree
    · obtain ⟨b, w⟩ := c
      obtain rfl : b = b' := Nat.le_antisymm (Memory.head_le_of_agree h' h fun a ha => (hagree a ha).symm)
        (Memory.head_le_of_agree h h' hagree)
      obtain rfl : w = w' := by
        simpa only [Memory.read_head] using hagree b (h.2 (b, w) (by simp)).1
      rw [ih m' (Memory.wf_tail h) (Memory.wf_tail h') fun a ha => Memory.tails_agree h h' (hagree a ha)]

/-! ### The step -/

theorem Writes.mem_wf {i : Instr} {s t : State} (h : Writes s i t) (hmem : s.mem.wf) : t.mem.wf := by
  cases h with
  | mem _ a vs => exact wf_storeBytes hmem a vs
  | _ => exact hmem

theorem toNat_pc_add_two {pc : Word} (h : pc.toNat ≤ 4094) : (pc + 2#16).toNat = pc.toNat + 2 :=
  BitVec.toNat_add_of_lt (by simpa using by omega)

theorem toNat_pc_add_four {pc : Word} (h : pc.toNat ≤ 4094) : (pc + 4#16).toNat = pc.toNat + 4 :=
  BitVec.toNat_add_of_lt (by simpa using by omega)

/-- Every live stack slot is at most 4096 (R142). -/
def LiveSlotsLow (s : State) : Prop := ∀ k : Fin 16, k.val < s.sp.val → (s.stack[k.val]).toNat ≤ 4096

/-- A push of `pc + 2` from a `pc` in range keeps the live slots low; a pop only gives one up. -/
theorem Writes.liveSlotsLow {i : Instr} {s t : State} (h : Writes s i t) (hpc : s.pc.toNat ≤ 4094)
    (hlow : LiveSlotsLow s) : LiveSlotsLow t := by
  cases h with
  | call nnn hroom p =>
    intro k hk
    change k.val < s.sp.val + 1 at hk
    change ((s.stack.set s.sp.val (s.pc + 2#16) hroom)[k.val]).toNat ≤ 4096
    rw [Vector.getElem_set]
    split
    · rw [toNat_pc_add_two hpc]; omega
    · exact hlow k (by omega)
  | ret p => exact fun k hk => hlow k (Nat.lt_of_lt_of_le hk (Nat.sub_le ..))
  | _ => exact hlow

/-- From a `pc` in range every class of the program-counter table leaves one at most 10FE (R25, R122). -/
theorem tablePc_le {s : State} (hpc : s.pc.toNat ≤ 4094) (hlow : LiveSlotsLow s) (i : Instr) :
    (tablePc i s).toNat ≤ 0x10FE := by
  have h2 := toNat_pc_add_two hpc
  have h4 := toNat_pc_add_four hpc
  unfold tablePc
  cases i with
  | jp nnn => have := nnn.isLt; simp; omega
  | jpV0 nnn => have := nnn.isLt; have := (s.reg 0#4).isLt; simp; omega
  | call nnn => have := nnn.isLt; dsimp only; split <;> simp <;> omega
  | ret =>
    dsimp only
    split
    · next hslot => have := hlow ⟨s.sp.val - 1, by omega⟩ (by simp only; omega); simp only at this; omega
    · omega
  | seImm | sneImm | seReg | sneReg | skp | sknp | ldVxK => dsimp only; split <;> omega
  | _ => dsimp only; omega

theorem inv_iff (s : State) : s.Inv ↔ s.mem.wf ∧ s.pc.toNat ≤ 0x10FE ∧ LiveSlotsLow s := Iff.rfl

/-- A step under any parameters keeps the invariant. -/
theorem stepUnder_keeps_inv {cfg : Config} {s t : State} (hinv : s.Inv) (h : stepUnder cfg s = .next t) : t.Inv := by
  obtain ⟨hmem, -, hlow⟩ := (inv_iff s).mp hinv
  rw [inv_iff]
  obtain ⟨hpc, ⟨i, -, rfl⟩ | ⟨-, rfl⟩⟩ := stepUnder_cases h
  · have hw := effectUnder_writes cfg i s
    exact ⟨hw.mem_wf hmem, effectUnder_pc cfg i s ▸ tablePc_le hpc hlow i, hw.liveSlotsLow hpc hlow⟩
  · exact ⟨hmem, by rw [State.advance_pc, toNat_pc_add_two hpc]; omega, hlow⟩

/-- Settles O58: `stepUnder_keeps_inv` under the default parameters. -/
theorem stepKeepsTheInvariant : Obligations.StepKeepsTheInvariant := fun s _ hinv h =>
  stepUnder_keeps_inv hinv ((stepUnder_params s).trans h)

/-! ### The operations -/

theorem resetUnder_inv (cfg : Config) (seedIn : Seed) : (State.resetUnder cfg seedIn).Inv :=
  ⟨wf_resetUnder cfg seedIn, show (0x200#16).toNat ≤ 0x10FE by decide, fun _ hk => absurd hk (Nat.not_lt_zero _)⟩

/-- Settles O57: reset leaves canonical memory (`wf_resetUnder`), pc 0x200 and no live slot. -/
theorem invariantHoldsAfterReset : Obligations.InvariantHoldsAfterReset := fun seedIn =>
  ⟨resetUnder_params seedIn ▸ resetUnder_inv params seedIn, fun cfg => resetUnder_inv cfg seedIn⟩

theorem load_keeps_inv {s : State} (hinv : s.Inv) (bytes : List Byte) : (s.load bytes).1.Inv := by
  obtain ⟨hmem, hrest⟩ := hinv
  unfold State.load
  split
  · next hlen =>
    have hfit : Config.programOrigin + bytes.length ≤ 4096 := by
      unfold Config.programOrigin; unfold Config.maxRom at hlen; omega
    exact ⟨Memory.wf_writeAll hmem hfit, hrest⟩
  · exact ⟨hmem, hrest⟩

theorem operateUnder_keeps_inv {cfg : Config} {op : Operation} {s t : State} (hinv : s.Inv)
    (h : s.operateUnder cfg op = .next t) : t.Inv := by
  cases op with
  | reset seedIn => cases h; exact resetUnder_inv cfg seedIn
  | load bytes => cases h; exact load_keeps_inv hinv bytes
  | step => exact stepUnder_keeps_inv hinv h
  | tick => cases h; exact hinv
  | setKey k b => obtain ⟨-, rfl⟩ := operateUnder_setKey_next h; exact hinv
  | clearDraw => cases h; exact hinv

/-- A block without a state gets one by `reset` only. -/
theorem applyStopped_next {cfg : Config} {op : Operation} {stop : Host.Outcome State Fault Refusal} {t : State}
    (h : applyStopped cfg op stop = .next t) (hstop : ∀ s, stop ≠ .next s) :
    ∃ seedIn, t = State.resetUnder cfg seedIn := by
  cases op with
  | reset seedIn => cases h; exact ⟨seedIn, rfl⟩
  | load | step | tick | setKey | clearDraw => exact absurd h (hstop t)

theorem applyUnder_keeps_inv {cfg : Config} {op : Operation} {b : Block} {t : State} (hinv : b.Inv)
    (h : Block.applyUnder cfg op b = .next t) : t.Inv := by
  cases b with
  | live s => exact operateUnder_keeps_inv hinv h
  | unreset | faulted | refused =>
    obtain ⟨seedIn, rfl⟩ := applyStopped_next h nofun
    exact resetUnder_inv cfg seedIn

theorem ofOutcome_inv {o : Host.Outcome State Fault Refusal} (h : ∀ t, o = .next t → t.Inv) :
    (Block.ofOutcome o).Inv := by
  cases o with
  | next t => exact h t rfl
  | fault | refused => trivial

/-- Settles O59: by induction on the operations, each of which keeps the invariant (`applyUnder_keeps_inv`). -/
theorem anyOperationsKeepTheInvariant : Obligations.AnyOperationsKeepTheInvariant := by
  intro cfg ops
  induction ops with
  | nil => exact fun _ hinv => hinv
  | cons op ops ih => exact fun b hinv => ih _ (ofOutcome_inv fun _ h => applyUnder_keeps_inv hinv h)

end Sys2Proof.Machine

/-! ## Register, ALU and index instructions (42_alu.md R160 to R171, 43_index_memory.md R191) -/

namespace Sys2Proof.Machine

/-! ### Assign and logic -/

theorem setReg_advance_unchangedBut (s : State) (x : Nibble) (v : Byte) :
    UnchangedBut (· = x) nowhere s (s.setReg x v).advance :=
  ⟨fun _ hr => State.reg_setReg_ne s v hr, fun _ _ => rfl, rfl, rfl, rfl, rfl, rfl, rfl, rfl, rfl, rfl⟩

theorem setReg_advance_reg_self (s : State) (x : Nibble) (v : Byte) : (s.setReg x v).advance.reg x = v := by
  rw [State.advance_reg, State.reg_setReg_self]

/-- Settles O22: each of the four writes `V[x]` and advances (`setReg_advance_unchangedBut`), and a bit of the
written value is the operation on the bits. -/
theorem assignAndLogicWriteVxOnly : Obligations.AssignAndLogicWriteVxOnly := by
  intro x y s
  refine ⟨_, _, _, _, exec_of_quietly rfl, exec_of_quietly rfl, exec_of_quietly rfl, exec_of_quietly rfl,
    setReg_advance_reg_self .., fun j _ => ?_, fun j _ => ?_, fun j _ => ?_, fun t ht => ?_⟩
  · rw [setReg_advance_reg_self, BitVec.getLsbD_or]
  · rw [setReg_advance_reg_self, BitVec.getLsbD_and]
  · rw [setReg_advance_reg_self, BitVec.getLsbD_xor]
  · simp only [List.mem_cons, List.not_mem_nil, or_false] at ht
    rcases ht with rfl | rfl | rfl | rfl <;> exact ⟨rfl, setReg_advance_unchangedBut s x _⟩

/-! ### The instructions that write a flag -/

/-- What an instruction that writes VF and then `V[x]` does, with the value and the flag as the spec gives them:
with x = F the value survives (R160, D10). -/
theorem flagInstr_completes {cfg : Config} {i : Instr} {s : State} {x : Nibble} {flag : Bool} {v v' f : Byte}
    (h : effectUnder cfg i s = quietly (s.setFlagThenReg x flag v).advance) (hv : v = v') (hf : flagByte flag = f) :
    ∃ t, execUnder cfg i s = .next t ∧ t.reg x = v' ∧ (x ≠ 0xF#4 → t.reg 0xF#4 = f) ∧ t.pc = s.pc + 2#16 ∧
      UnchangedBut (fun r => r = x ∨ r = 0xF#4) nowhere s t ∧ reportUnder cfg i s = ⟨false, .none⟩ := by
  have hreg (r : Nibble) : (s.setFlagThenReg x flag v).advance.reg r =
      if r = x then v else if r = flagReg then flagByte flag else s.reg r := State.setFlagThenReg_reg s x r flag v
  refine ⟨(s.setFlagThenReg x flag v).advance, by rw [execUnder_eq, h]; rfl, ?_, fun hx => ?_, rfl,
    ⟨fun r hr => ?_, fun _ _ => rfl, rfl, rfl, rfl, rfl, rfl, rfl, rfl, rfl, rfl⟩, by rw [reportUnder, h]; rfl⟩
  · rw [hreg, if_pos rfl, hv]
  · rw [hreg, if_neg hx.symm, if_pos rfl, hf]
  · rw [hreg, if_neg fun e => hr (.inl e), if_neg fun e => hr (.inr e)]

theorem flagByte_decide (p : Prop) [Decidable p] : flagByte (decide p) = if p then 1#8 else 0#8 := by
  simp only [flagByte, decide_eq_true_eq]

theorem flagByte_getLsbD (v : Byte) (j : Nat) : flagByte (v.getLsbD j) = BitVec.ofNat 8 (v.toNat / 2 ^ j % 2) := by
  rw [← BitVec.testBit_toNat, Nat.testBit_eq_decide_div_mod_eq, flagByte_decide]
  rcases Nat.mod_two_eq_zero_or_one (v.toNat / 2 ^ j) with h | h <;> simp [h]

theorem byte_sub_eq_ofNat (a b : Byte) : a - b = BitVec.ofNat 8 ((256 + a.toNat - b.toNat) % 256) := by
  apply BitVec.eq_of_toNat_eq
  rw [BitVec.toNat_sub, BitVec.toNat_ofNat, Nat.mod_mod]
  have := b.isLt
  congr 1; omega

theorem byte_half_eq_ofNat (a : Byte) : a >>> 1 = BitVec.ofNat 8 (a.toNat / 2) := by
  apply BitVec.eq_of_toNat_eq
  rw [BitVec.toNat_ushiftRight, Nat.shiftRight_eq_div_pow, BitVec.toNat_ofNat,
    Nat.mod_eq_of_lt (by have := a.isLt; omega)]

theorem byte_double_eq_ofNat (a : Byte) : a <<< 1 = BitVec.ofNat 8 (a.toNat * 2 % 256) := by
  apply BitVec.eq_of_toNat_eq
  rw [BitVec.toNat_shiftLeft, Nat.shiftLeft_eq, BitVec.toNat_ofNat, Nat.mod_mod]

theorem flagByte_shiftedOutRight (a : Byte) : flagByte (shiftedOutRight a) = BitVec.ofNat 8 (a.toNat % 2) := by
  rw [shiftedOutRight, flagByte_getLsbD, pow_zero, Nat.div_one]

theorem flagByte_shiftedOutLeft (a : Byte) : flagByte (shiftedOutLeft a) = BitVec.ofNat 8 (a.toNat / 128) := by
  rw [shiftedOutLeft, flagByte_getLsbD, Nat.mod_eq_of_lt (by have := a.isLt; omega)]; rfl

/-- Settles O23: a flag-writing instruction (`flagInstr_completes`) with the wrapped sum and the carry. -/
theorem addReportsTheCarry : Obligations.AddReportsTheCarry := fun x y _ =>
  flagInstr_completes (cfg := params) (i := .addReg x y) rfl (byte_add_eq_ofNat _ _) (flagByte_decide _)

/-- Settles O24: flag-writing instructions (`flagInstr_completes`) with the wrapped difference and no borrow. -/
theorem subtractionsReportNoBorrow : Obligations.SubtractionsReportNoBorrow := fun x y _ =>
  ⟨flagInstr_completes (cfg := params) (i := .sub x y) rfl (byte_sub_eq_ofNat _ _) (flagByte_decide _),
    flagInstr_completes (cfg := params) (i := .subn x y) rfl (byte_sub_eq_ofNat _ _) (flagByte_decide _)⟩

/-- Settles O25: flag-writing instructions (`flagInstr_completes`) with the shifted `V[x]` and the lost bit. -/
theorem shiftsMoveVxByOneBit : Obligations.ShiftsMoveVxByOneBit := fun x y _ =>
  ⟨flagInstr_completes (cfg := params) (i := .shr x y) rfl (byte_half_eq_ofNat _) (flagByte_shiftedOutRight _),
    flagInstr_completes (cfg := params) (i := .shl x y) rfl (byte_double_eq_ofNat _) (flagByte_shiftedOutLeft _)⟩

theorem shiftOperand_of_vy {cfg : Config} (h : cfg.shiftSource = .vy) (s : State) (x y : Nibble) :
    s.shiftOperand cfg.shiftSource x y = s.reg y := by
  rw [h, State.shiftOperand]

/-- Settles O26: as under the default (`flagInstr_completes`), the operand being `V[y]`. -/
theorem shiftsUnderTheOtherSource : Obligations.ShiftsUnderTheOtherSource := by
  intro cfg x y s h
  rw [← shiftOperand_of_vy h s x y]
  exact ⟨flagInstr_completes (i := .shr x y) rfl (byte_half_eq_ofNat _) (flagByte_shiftedOutRight _),
    flagInstr_completes (i := .shl x y) rfl (byte_double_eq_ofNat _) (flagByte_shiftedOutLeft _)⟩

/-! ### ADD I -/

theorem add_zextByte_eq_ofNat (w : Word) (v : Byte) :
    w + zextByte v = BitVec.ofNat 16 ((w.toNat + v.toNat) % 65536) := by
  apply BitVec.eq_of_toNat_eq
  rw [zextByte, BitVec.toNat_add, BitVec.toNat_ofNat, Nat.mod_mod, BitVec.toNat_setWidth,
    Nat.mod_eq_of_lt (a := v.toNat) (by have := v.isLt; omega)]

theorem effect_addI (x : Nibble) (s : State) : effect (.addI x) s = quietly { s with
    I := BitVec.ofNat 16 ((s.I.toNat + (s.reg x).toNat) % 65536), pc := s.pc + 2#16 } := by
  rw [← add_zextByte_eq_ofNat]; rfl

/-- Settles O28: `effect_addI`. -/
theorem indexAddWrapsAtSixteenBits : Obligations.IndexAddWrapsAtSixteenBits := fun x s =>
  ⟨exec_of_quietly (effect_addI x s), report_of_quietly (effect_addI x s)⟩

end Sys2Proof.Machine

/-! ## Memory instructions (43_index_memory.md R193 to R195, 20_memory.md R66, R70, R72) -/

namespace Sys2Proof.Machine

/-! ### The anomaly of a multi-byte operation -/

theorem boundsAnomaly_eq_ite {violated : Bool} {p : Prop} [Decidable p] (h : violated = true ↔ p) :
    boundsAnomaly violated = if p then .memoryBoundsViolation else .none := by
  simp only [boundsAnomaly, h]

theorem storeBytes_anomaly (m : Memory) (a : Nat) {vs : List Byte} {n : Nat} (hn : vs.length = n + 1) :
    boundsAnomaly (storeBytes m a vs).2 = if a + n > 4095 then .memoryBoundsViolation else .none := by
  refine boundsAnomaly_eq_ite ?_
  have hne : vs ≠ [] := List.ne_nil_of_length_eq_add_one hn
  rw [storeBytes_violated, decide_eq_true_iff, hn]
  exact ⟨fun h => by omega, fun h => ⟨hne, by omega⟩⟩

theorem loadBytes_anomaly (m : Memory) (a n : Nat) :
    boundsAnomaly (loadBytes m a (n + 1)).2 = if a + n > 4095 then .memoryBoundsViolation else .none := by
  refine boundsAnomaly_eq_ite ?_
  rw [loadBytes_snd, decide_eq_true_iff]
  omega

/-! ### The stores -/

/-- The k-th byte of a store is at `I + k` if that is in memory. -/
theorem runStore_read {s : State} (hwf : s.mem.wf) {vs : List Byte} {k : Nat} {v : Byte} (hv : vs[k]? = some v)
    (hk : s.I.toNat + k ≤ 4095) : (runStore vs s).state.mem.read (s.I.toNat + k) = v := by
  refine (read_storeBytes hwf _ vs _).trans ?_
  rw [if_pos ⟨Nat.le_add_right .., hk⟩, Nat.add_sub_cancel_left, hv, Option.getD_some]

/-- A store of `n + 1` bytes changes `pc` and the bytes from `I` to `I + n` that are in memory. -/
theorem runStore_unchangedBut {s : State} (hwf : s.mem.wf) {vs : List Byte} {n : Nat} (hn : vs.length = n + 1) :
    UnchangedBut nowhere (fun a => s.I.toNat ≤ a ∧ a ≤ s.I.toNat + n ∧ a ≤ 4095) s (runStore vs s).state := by
  refine ⟨fun _ _ => rfl, fun a ha => (read_storeBytes hwf _ vs a).trans ?_,
    rfl, rfl, rfl, rfl, rfl, rfl, rfl, rfl, rfl⟩
  split
  · next hr => rw [List.getElem?_eq_none (by rw [hn]; omega), Option.getD_none]
  · rfl

theorem regsThrough_length (s : State) (x : Nibble) : (s.regsThrough x).length = x.toNat + 1 := by
  have := x.isLt
  rw [State.regsThrough, List.length_take, Vector.length_toList]; omega

theorem regsThrough_getElem? (s : State) {x k : Nibble} (h : k.toNat ≤ x.toNat) :
    (s.regsThrough x)[k.toNat]? = some (s.reg k) := by
  rw [State.regsThrough, List.getElem?_take_of_lt (Nat.lt_succ_of_le h),
    List.getElem?_eq_getElem (by rw [Vector.length_toList]; exact k.isLt), Vector.getElem_toList, State.reg]

/-- Fx55 stores `V[k]` at `I + k` (R194). -/
theorem effect_ldIVx_read {s : State} (hwf : s.mem.wf) {x k : Nibble} (h : k.toNat ≤ x.toNat)
    (hk : s.I.toNat + k.toNat ≤ 4095) : (effect (.ldIVx x) s).state.mem.read (s.I.toNat + k.toNat) = s.reg k :=
  runStore_read hwf (regsThrough_getElem? s h) hk

/-- Settles O29: Fx55 is the store of the `x + 1` registers up to `V[x]` (`effect_ldIVx_read`,
`runStore_unchangedBut`). -/
theorem storeRegistersWritesTheRangeInMemory : Obligations.StoreRegistersWritesTheRangeInMemory := fun x s hwf =>
  ⟨_, exec_eq _ s, rfl, fun _ => effect_ldIVx_read hwf, runStore_unchangedBut hwf (regsThrough_length s x),
    congrArg (Report.mk false) (storeBytes_anomaly _ _ (regsThrough_length s x))⟩

/-- Settles O30: Fx33 is the store of three digits (`runStore_read`, `runStore_unchangedBut`). -/
theorem storeDigitsWritesHundredsTensUnits : Obligations.StoreDigitsWritesHundredsTensUnits := fun _ s hwf =>
  ⟨_, exec_eq _ s, rfl, runStore_read (k := 0) hwf rfl, runStore_read (k := 1) hwf rfl,
    runStore_read (k := 2) hwf rfl,
    runStore_unchangedBut hwf rfl, congrArg (Report.mk false) (storeBytes_anomaly _ _ rfl)⟩

/-! ### The load -/

/-- Settles O31: the registers are those of `runLdVxI_reg`, and nothing else is written. -/
theorem loadRegistersReadsTheRangeInMemory : Obligations.LoadRegistersReadsTheRangeInMemory := by
  intro x s
  obtain ⟨V, hV⟩ := State.setRegsFrom_frame 0 (loadBytes s.mem s.I.toNat (x.toNat + 1)).1 s
  have hstate : (effect (.ldVxI x) s).state = { s with V := V }.advance := congrArg State.advance hV
  refine ⟨_, exec_eq _ s, by rw [hstate]; rfl, fun k hk hr => (runLdVxI_reg x k s).trans (if_pos ⟨hk, hr⟩),
    ⟨fun k hk => (runLdVxI_reg x k s).trans (if_neg hk), ?_⟩,
    congrArg (Report.mk false) (loadBytes_anomaly _ _ _)⟩
  rw [hstate]
  exact ⟨fun _ _ => rfl, rfl, rfl, rfl, rfl, rfl, rfl, rfl, rfl, rfl⟩

/-- Settles O32: the load reads (`runLdVxI_reg`) and the fetch reads (`fetch_in_range`) what the store left
(`effect_ldIVx_read`). -/
theorem storedBytesAreSeenLater : Obligations.StoredBytesAreSeenLater := by
  intro x s t u hwf ht hmem
  rw [(exec_next_iff _ s t).mp ht] at hmem
  refine ⟨fun hI => ⟨_, exec_eq _ u, fun k hk hr => ?_⟩, fun k hk hr hpc => ?_⟩
  · refine (runLdVxI_reg x k u).trans ?_
    rw [hI, hmem, if_pos ⟨hk, hr⟩]
    exact effect_ldIVx_read hwf hk hr
  · have hk1 : (k + 1#4).toNat = k.toNat + 1 := BitVec.toNat_add_of_lt (by have := x.isLt; simp; omega)
    have hlo := effect_ldIVx_read hwf (x := x) (k := k + 1#4) (by rw [hk1]; exact hk) (by rw [hk1]; exact hr)
    rw [hk1] at hlo
    rw [fetch_in_range (by omega), hpc, hmem, effect_ldIVx_read hwf (by omega) (by omega), Nat.add_assoc, hlo]

/-! ### Words and programs placed from outside (70_reset_and_hazards.md R292) -/

theorem withFetchWord_eq {s : State} (h : s.pc.toNat ≤ 4094) (w : Word) : s.withFetchWord 16 w.toNat =
    { s with mem := s.mem.writeAll s.pc.toNat (bytesOfWord w) } := by
  simp only [State.withFetchWord, if_pos h, tableWord_toNat]

theorem read_writeAll_bytesOfWord {m : Memory} (hwf : m.wf) {a : Nat} (ha : a ≤ 4094) (w : Word) (b : Nat) :
    (m.writeAll a (bytesOfWord w)).read b =
      if b = a then w.extractLsb' 8 8 else if b = a + 1 then w.extractLsb' 0 8 else m.read b := by
  rw [Memory.read_writeAll hwf (by simp only [bytesOfWord, List.length_cons, List.length_nil]; omega)]
  split_ifs with hle h0 h1
  · rw [h0, Nat.sub_self]; rfl
  · rw [h1, Nat.add_sub_cancel_left]; rfl
  · rw [List.getElem?_eq_none (by simp only [bytesOfWord, List.length_cons, List.length_nil]; omega), Option.getD_none]
  · omega
  · omega
  · rfl

/-- Settles O9: the two bytes at `pc` read back as the word (`read_writeAll_bytesOfWord`), so a step runs what it
decodes to, and the other bytes are as before. -/
theorem placedWordRunsNext : Obligations.PlacedWordRunsNext := by
  intro s w i hwf hpc hd
  rw [withFetchWord_eq hpc]
  have hread := read_writeAll_bytesOfWord hwf hpc w
  have hfetched : fetchedWord { s with mem := s.mem.writeAll s.pc.toNat (bytesOfWord w) } = w := by
    rw [fetchedWord, hread, hread, if_pos rfl, if_neg (Nat.succ_ne_self _), if_pos rfl, wordOfBytes_bytes]
  rw [← hfetched] at hd
  refine ⟨step_decoded (s := { s with mem := s.mem.writeAll s.pc.toNat (bytesOfWord w) }) hpc hd,
    ⟨fun _ _ => rfl, fun a ha => ?_, rfl, rfl, rfl, rfl, rfl, rfl, rfl, rfl, rfl⟩, rfl⟩
  rw [hread, if_neg fun e => ha (.inl e), if_neg fun e => ha (.inr e)]

theorem load_of_fits {bytes : List Byte} (h : bytes.length ≤ 3584) (s : State) :
    s.load bytes = ({ s with mem := s.mem.writeAll 0x200 bytes }, .ok) := if_pos h

theorem load_of_too_long {bytes : List Byte} (h : 3584 < bytes.length) (s : State) :
    s.load bytes = (s, .romTooLarge) := if_neg (Nat.not_le_of_lt h)

/-- Settles O47: a ROM that fits is copied to 0x200 (`Memory.read_writeAll`), a longer one is not. -/
theorem loadRoundTripsOrChangesNothing : Obligations.LoadRoundTripsOrChangesNothing := by
  intro bytes s hwf
  refine ⟨fun hfit => ?_, fun hlong => ?_⟩
  · have hread := Memory.read_writeAll hwf (a := 0x200) (vs := bytes) (by omega)
    have hload := load_of_fits hfit s
    refine ⟨_, rfl, congrArg (fun p : State × LoadResult => Reply.loaded p.2) hload, ?_⟩
    rw [hload]
    refine ⟨fun k hk => ?_, rfl, fun _ _ => rfl, fun a ha => ?_, rfl, rfl, rfl, rfl, rfl, rfl, rfl, rfl, rfl⟩
    · rw [hread, if_pos (Nat.le_add_right ..), Nat.add_sub_cancel_left, List.getElem?_eq_getElem hk, Option.getD_some]
    · rw [hread]
      split
      · rw [List.getElem?_eq_none (by omega), Option.getD_none]
      · rfl
  · have hload := load_of_too_long hlong s
    exact ⟨congrArg (fun p : State × LoadResult => Host.Outcome.next p.1) hload,
      congrArg (fun p : State × LoadResult => Reply.loaded p.2) hload⟩

end Sys2Proof.Machine

/-! ## Display instructions (44_display.md R210 to R212, 95_test_vectors.md S7) -/

namespace Sys2Proof.Machine

/-- Settles O33: CLS leaves the blank framebuffer (`Framebuffer.cell_blank`). -/
theorem clearScreenBlanksEveryCell : Obligations.ClearScreenBlanksEveryCell := fun s =>
  ⟨decodeWord_encode (i := .cls) rfl, _, exec_eq _ s, Framebuffer.cell_blank, rfl, rfl,
    ⟨fun _ _ => rfl, fun _ _ => rfl, rfl, rfl, rfl, rfl, rfl, rfl, rfl, rfl, rfl⟩, rfl⟩

/-! ### DRW -/

/-- DRW's sprite, as a set of cells. -/
def drawnPixel (x y n : Nibble) (s : State) : Fin 32 → Fin 64 → Prop :=
  spritePixel s.mem s.I.toNat (s.reg x) (s.reg y) n.toNat

/-- A cell of the canvas differs from the framebuffer's exactly on the sprite (R211). -/
theorem spriteCanvas_flips_iff (x y n : Nibble) (s : State) (r : Fin 32) (c : Fin 64) :
    Framebuffer.cell (spriteCanvas x y n s).1 r c ≠ Framebuffer.cell s.fb r c ↔ drawnPixel x y n s r c := by
  rw [(spriteCanvas_spec x y n s).1]
  unfold drawnPixel
  by_cases h : spritePixel s.mem s.I.toNat (s.reg x) (s.reg y) n.toNat r c <;> simp [h]

theorem effect_drw_flag_of_collision {x y n : Nibble} {s : State}
    (h : ∃ r c, Framebuffer.cell s.fb r c = true ∧ drawnPixel x y n s r c) :
    (effect (.drw x y n) s).state.reg flagReg = 1#8 := by
  rw [effect_drw_flag, (spriteCanvas_spec x y n s).2.mpr h, flagByte_true]

theorem effect_drw_flag_of_no_collision {x y n : Nibble} {s : State}
    (h : ¬ ∃ r c, Framebuffer.cell s.fb r c = true ∧ drawnPixel x y n s r c) :
    (effect (.drw x y n) s).state.reg flagReg = 0#8 := by
  have hmiss := (spriteCanvas_spec x y n s).2.not.mpr h
  rw [effect_drw_flag, Bool.eq_false_of_not_eq_true hmiss, flagByte_false]

/-- A sprite is cut when it has a row beyond memory (R66, D20). -/
theorem spriteBytes_anomaly (n : Nibble) (s : State) : boundsAnomaly (spriteBytes n s).2 =
    if 1 ≤ n.toNat ∧ s.I.toNat + n.toNat > 4096 then .memoryBoundsViolation else .none := by
  refine boundsAnomaly_eq_ite ?_
  rw [spriteBytes, loadBytes_snd, decide_eq_true_iff]
  omega

/-- Settles O34: the canvas of the sprite is the framebuffer flipped on its cells (`spriteCanvas_flips_iff`), its
collision is VF, and only VF is written besides (`State.reg_setReg_ne`). -/
theorem drawFlipsTheSpritePixels : Obligations.DrawFlipsTheSpritePixels := by
  intro x y n s
  refine ⟨_, exec_eq _ s, rfl, spriteCanvas_flips_iff x y n s, effect_drw_flag_of_collision,
    effect_drw_flag_of_no_collision, rfl,
    ⟨fun _ hr => State.reg_setReg_ne s _ hr, fun _ _ => rfl, rfl, rfl, rfl, rfl, rfl, rfl, rfl, rfl, rfl⟩, ?_⟩
  refine congrArg (Report.mk true) ((spriteBytes_anomaly n s).trans (if_congr ?_ rfl rfl))
  omega

theorem flagByte_eq_one_iff (b : Bool) : flagByte b = 1#8 ↔ b = true := by
  cases b <;> decide

/-- Settles O36: with the same operands the second sprite is the first, so it flips the same cells back, and it
meets a lit cell exactly where the first lit one. -/
theorem secondDrawRestoresTheFramebuffer : Obligations.SecondDrawRestoresTheFramebuffer := by
  classical
  intro x y n s t ht hx hy
  obtain rfl := (exec_next_iff _ s t).mp ht
  obtain ⟨hfirst, -⟩ := spriteCanvas_spec x y n s
  obtain ⟨hsecond, hcollide⟩ := spriteCanvas_spec x y n (effect (.drw x y n) s).state
  rw [hx, hy] at hsecond hcollide
  refine ⟨_, exec_eq _ _, Framebuffer.ext_cell fun r c => ?_, ?_⟩
  · refine (hsecond r c).trans ?_
    rw [effect_drw_fb, hfirst, Bool.xor_assoc]
    exact (congrArg _ (Bool.xor_self _)).trans (Bool.xor_false _)
  · refine (Eq.congr_left (effect_drw_flag x y n _)).trans ((flagByte_eq_one_iff _).trans (hcollide.trans ?_))
    refine exists₂_congr fun r c => ?_
    rw [effect_drw_fb, hfirst]
    change _ ∧ spritePixel s.mem s.I.toNat (s.reg x) (s.reg y) n.toNat r c ↔ _
    by_cases h : spritePixel s.mem s.I.toNat (s.reg x) (s.reg y) n.toNat r c <;> simp [h]

end Sys2Proof.Machine

/-! ## Keys, timers and the random source (45_keys_timers_rng.md R232 to R236, R239, R240) -/

namespace Sys2Proof.Machine

/-! ### Waiting for a key -/

theorem runLdVxK_of_none_pressed (choice : Vector Bool 16 → Nibble) (x : Nibble) {s : State}
    (h : ∀ k, s.pressed k = false) : runLdVxK choice x s = quietly s := by
  refine if_neg fun hany => ?_
  obtain ⟨k, hk⟩ := (anyPressed_iff s).mp hany
  exact Bool.false_ne_true ((h k).symm.trans hk)

theorem runLdVxK_of_pressed (choice : Vector Bool 16 → Nibble) (x : Nibble) {s : State}
    (h : ∃ k, s.pressed k = true) : runLdVxK choice x s = quietly { s with
      V := s.V.set x.toNat (BitVec.ofNat 8 (choice s.key).toNat) x.isLt, pc := s.pc + 2#16 } := by
  refine (if_pos ((anyPressed_iff s).mpr h)).trans ?_
  rw [BitVec.ofNat_toNat]; rfl

/-- The lowest pressed key is the one with none pressed below it (D22). -/
theorem lowestPressed_eq {s : State} {k : Nibble} (hk : s.pressed k = true)
    (hlow : ∀ j : Nibble, j.toNat < k.toNat → s.pressed j = false) : lowestPressed s.key = k := by
  obtain ⟨hpressed, hmin⟩ := lowestPressed_spec ((anyPressed_iff s).mpr ⟨k, hk⟩)
  refine BitVec.eq_of_toNat_eq (Nat.le_antisymm (hmin k hk) (Nat.le_of_not_lt fun hlt => ?_))
  exact Bool.false_ne_true ((hlow _ hlt).symm.trans hpressed)

/-- Settles O38: the two branches of the instruction, the choice being the lowest pressed key
(`lowestPressed_eq`). -/
theorem waitForKeyHoldsOrStoresTheLowest : Obligations.WaitForKeyHoldsOrStoresTheLowest := by
  intro x s
  refine ⟨runLdVxK_report _ x s, fun h => exec_of_quietly (runLdVxK_of_none_pressed _ x h), fun k hk hlow => ?_⟩
  rw [← lowestPressed_eq hk hlow]
  exact exec_of_quietly (runLdVxK_of_pressed _ x ⟨k, hk⟩)

/-- Settles O39: a pressed key is the one pressed key. -/
theorem waitForKeyUnderAnyChoice : Obligations.WaitForKeyUnderAnyChoice := by
  intro choice x k s hchoice hk honly
  rw [runLdVxK_of_pressed choice x ⟨k, hk⟩, honly _ hchoice, quietly]

theorem setKey_pressed (s : State) (k : Nat) (b : Bool) (h : k < 16) (j : Nibble) :
    (s.setKey k b h).pressed j = if j.toNat = k then b else s.pressed j := by
  unfold State.pressed
  rw [State.setKey_key, Vector.getElem_set]
  simp only [eq_comm]

/-- Settles O46: a legal index sets its key (`setKey_pressed`), another is refused. -/
theorem setKeyWritesOneKey : Obligations.SetKeyWritesOneKey := fun k b s =>
  ⟨fun h => ⟨s.setKey k b h, dif_pos h, setKey_pressed s k b h, rfl⟩, fun h => dif_neg (Nat.not_lt_of_le h)⟩

/-! ### Timers and the random source -/

theorem effect_ldVxDt (x : Nibble) (s : State) : effect (.ldVxDt x) s =
    quietly { s with V := s.V.set x.toNat s.DT x.isLt, pc := s.pc + 2#16 } := rfl

theorem effect_ldDtVx (x : Nibble) (s : State) : effect (.ldDtVx x) s =
    quietly { s with DT := s.reg x, pc := s.pc + 2#16 } := rfl

theorem effect_ldStVx (x : Nibble) (s : State) : effect (.ldStVx x) s =
    quietly { s with ST := s.reg x, pc := s.pc + 2#16 } := rfl

/-- Settles O40: each transfer writes its destination with nothing to report, and the tone is `ST > 0` (R237). -/
theorem timerTransfers : Obligations.TimerTransfers := by
  refine fun x s => ⟨exec_of_quietly (effect_ldVxDt x s), exec_of_quietly (effect_ldDtVx x s),
    ⟨_, exec_of_quietly (effect_ldStVx x s), rfl, decide_eq_true_iff⟩, fun i hi => ?_⟩
  simp only [List.mem_cons, List.not_mem_nil, or_false] at hi
  rcases hi with rfl | rfl | rfl
  · exact report_of_quietly (effect_ldVxDt x s)
  · exact report_of_quietly (effect_ldDtVx x s)
  · exact report_of_quietly (effect_ldStVx x s)

/-- Settles O42: a number reduced mod 2147483647 fits in 32 bits as it is. -/
theorem randomSourceFormula : Obligations.RandomSourceFormula := by
  intro seed
  have hlt := Nat.mod_lt (seed.toNat * 1103515245 + 12345) (show 0 < 2147483647 by decide)
  have hnext : (params.rngNext seed).toNat = (seed.toNat * 1103515245 + 12345) % 2147483647 :=
    (BitVec.toNat_ofNat _ _).trans (Nat.mod_eq_of_lt (hlt.trans (by decide)))
  exact ⟨hnext, hnext ▸ hlt⟩

/-- Settles O44: by induction on the ticks; each takes 1 from a timer above 0 (`countDown_toNat`). -/
theorem ticksRunTimersOut : Obligations.TicksRunTimersOut := by
  intro n
  induction n with
  | zero => exact fun s => ⟨s, rfl, rfl, rfl, rfl⟩
  | succ n ih =>
    intro s
    obtain ⟨t, hrun, hDT, hST, ht⟩ := ih s.tick
    rw [State.tick_DT, countDown_toNat] at hDT
    rw [State.tick_ST, countDown_toNat] at hST
    exact ⟨t, hrun, by omega, by omega, ht⟩

end Sys2Proof.Machine

/-! ## Reset and the unreset block (70_reset_and_hazards.md R290, R291) -/

namespace Sys2Proof.Machine

/-- `reset` answers the same state from every block. -/
theorem applyUnder_reset (cfg : Config) (seedIn : Seed) (b : Block) :
    Block.applyUnder cfg (.reset seedIn) b = .next (State.resetUnder cfg seedIn) := by
  cases b <;> rfl

theorem resetUnder_reg (cfg : Config) (seedIn : Seed) (r : Nibble) : (State.resetUnder cfg seedIn).reg r = 0#8 :=
  Vector.getElem_replicate r.isLt

/-- Settles O48: the elements of the state after reset; memory is `read_resetUnder`. -/
theorem resetDefinesEveryElement : Obligations.ResetDefinesEveryElement := by
  intro cfg seedIn b
  refine ⟨_, applyUnder_reset cfg seedIn b, fun a h => ?_, fun a h => ?_, resetUnder_reg cfg seedIn, rfl, rfl,
    fun k => Vector.getElem_replicate k.isLt, rfl, rfl, rfl, Framebuffer.cell_blank,
    fun k => Vector.getElem_replicate k.isLt, rfl, rfl, rfl⟩
  · rw [read_resetUnder, dif_pos h]
  · rw [read_resetUnder, dif_neg (Nat.not_lt_of_le h)]

theorem applyStopped_of_not_reset (cfg : Config) {op : Operation} (h : ∀ seedIn, op ≠ .reset seedIn)
    (stop : Host.Outcome State Fault Refusal) : applyStopped cfg op stop = stop := by
  cases op with
  | reset seedIn => exact absurd rfl (h seedIn)
  | load | step | tick | setKey | clearDraw => rfl

/-- A faulted block stays so without a reset (R7). -/
theorem run_faulted {ops : List Operation} (h : ∀ op ∈ ops, ∀ seedIn, op ≠ .reset seedIn) (f : Fault) :
    Block.run ops (.faulted f) = .faulted f := by
  induction ops with
  | nil => rfl
  | cons op ops ih =>
    obtain ⟨hop, hops⟩ := List.forall_mem_cons.mp h
    rw [Block.run, Block.runUnder, Block.applyUnder, applyStopped_of_not_reset params hop]
    exact ih hops

/-- Settles O49: the first operation is the fault, and the block stays faulted (`run_faulted`). -/
theorem nothingHasMeaningBeforeReset : Obligations.NothingHasMeaningBeforeReset := by
  intro ops hne h
  cases ops with
  | nil => exact absurd rfl hne
  | cons op ops =>
    obtain ⟨hop, hops⟩ := List.forall_mem_cons.mp h
    rw [Block.run, Block.runUnder, Block.applyUnder, applyStopped_of_not_reset params hop]
    exact run_faulted hops .notReset

end Sys2Proof.Machine

/-! ## Whole-machine rules (40_step_cycle.md R124, 60_exceptions.md R268, 10_state.md R26, R28, 00_scope.md R4) -/

namespace Sys2Proof.Machine

/-! ### Reports -/

theorem runCall_report (nnn : Imm12) (s : State) :
    (runCall nnn s).report = ⟨false, if s.sp.val = 16 then .stackOverflow else .none⟩ := by
  obtain hroom | hfull : s.sp.val < 16 ∨ s.sp.val = 16 := by omega
  · rw [runCall_of_room nnn hroom, if_neg hroom.ne]; rfl
  · rw [runCall_of_full nnn hfull, if_pos hfull]; rfl

theorem runRet_report (s : State) :
    (runRet s).report = ⟨false, if s.sp.val = 0 then .stackUnderflow else .none⟩ := by
  obtain hempty | hslot := Nat.eq_zero_or_pos s.sp.val
  · rw [runRet_of_empty hempty, if_pos hempty]; rfl
  · rw [runRet_of_nonempty hslot, if_neg hslot.ne']; rfl

/-- The report of an instruction under any parameters: whether it draws (R124), and the anomaly of the table of
R268. -/
theorem reportUnder_eq (cfg : Config) (i : Instr) (s : State) :
    reportUnder cfg i s = ⟨drawsInstr i, tableAnomaly i s⟩ := by
  cases i with
  | call nnn => exact runCall_report nnn s
  | ret => exact runRet_report s
  | ldVxK x => exact runLdVxK_report cfg.keyWaitChoice x s
  | ldB x => exact congrArg (Report.mk false) (storeBytes_anomaly _ _ rfl)
  | ldIVx x => exact congrArg (Report.mk false) (storeBytes_anomaly _ _ (regsThrough_length s x))
  | ldVxI x => exact congrArg (Report.mk false) (loadBytes_anomaly _ _ _)
  | drw x y n => exact congrArg (Report.mk true) (spriteBytes_anomaly n s)
  | _ => rfl

theorem report_eq (i : Instr) (s : State) : report i s = ⟨drawsInstr i, tableAnomaly i s⟩ :=
  reportUnder_eq params i s

/-- Settles O50: `report_eq`. -/
theorem anomaliesFollowTheTable : Obligations.AnomaliesFollowTheTable := fun i s => by rw [report_eq]

/-- Settles O51: `report_eq`, and `drawsInstr` names CLS and DRW. -/
theorem drawOccurredExactlyForClsAndDrw : Obligations.DrawOccurredExactlyForClsAndDrw := fun i s => by
  rw [report_eq]
  exact drawsInstr_iff i

/-! ### What no instruction reads -/

/-- The state with other values for what no instruction reads: the draw flag, the sound timer and a stack. -/
def State.withHidden (d : Bool) (st : Byte) (stk : Vector Word 16) (s : State) : State :=
  { s with draw := d, ST := st, stack := stk }

/-- The stack agrees with the state's on the live slots. -/
def AgreesOnLive (stk : Vector Word 16) (s : State) : Prop :=
  ∀ k : Fin 16, k.val < s.sp.val → stk[k.val] = s.stack[k.val]

/-- Two effects with the same report and states a program cannot tell apart. -/
def SameEffect (e e' : Effect) : Prop :=
  e'.report = e.report ∧ ∃ d st stk, e'.state = e.state.withHidden d st stk ∧ AgreesOnLive stk e.state

theorem sameToProgram_iff (s t : State) :
    SameToProgram s t ↔ ∃ d st stk, t = s.withHidden d st stk ∧ AgreesOnLive stk s := by
  constructor
  · rintro ⟨hmem, hV, hI, hpc, hsp, hlive, hDT, hfb, hkey, hseed⟩
    refine ⟨t.draw, t.ST, t.stack, ?_, hlive⟩
    unfold State.withHidden
    rw [← hmem, ← hV, ← hI, ← hpc, ← hsp, ← hDT, ← hfb, ← hkey, ← hseed]
  · rintro ⟨d, st, stk, rfl, hlive⟩
    exact ⟨rfl, rfl, rfl, rfl, rfl, hlive, rfl, rfl, rfl, rfl⟩

theorem State.setRegsFrom_withHidden (d : Bool) (st : Byte) (stk : Vector Word 16) (k : Nat) (vs : List Byte)
    (s : State) :
    State.setRegsFrom k vs (s.withHidden d st stk) = (State.setRegsFrom k vs s).withHidden d st stk := by
  induction vs generalizing k s with
  | nil => rfl
  | cons v vs ih => exact ih (k + 1) (s.setReg (BitVec.ofNat 4 k) v)

section
variable (d : Bool) (st : Byte) {stk : Vector Word 16} {s : State}

/-- A push writes the same slot of both stacks. -/
theorem runCall_withHidden (nnn : Imm12) (h : AgreesOnLive stk s) :
    SameEffect (runCall nnn s) (runCall nnn (s.withHidden d st stk)) := by
  obtain hroom | hfull : s.sp.val < 16 ∨ s.sp.val = 16 := by omega
  · rw [runCall_of_room nnn hroom, runCall_of_room nnn (s := s.withHidden d st stk) hroom]
    refine ⟨rfl, d, st, stk.set s.sp.val (s.pc + 2#16) hroom, rfl, fun k hk => ?_⟩
    change k.val < s.sp.val + 1 at hk
    change (stk.set _ _ hroom)[k.val] = (s.stack.set _ _ hroom)[k.val]
    rw [Vector.getElem_set, Vector.getElem_set]
    split
    · rfl
    · exact h k (by omega)
  · rw [runCall_of_full nnn hfull, runCall_of_full nnn (s := s.withHidden d st stk) hfull]
    exact ⟨rfl, d, st, stk, rfl, h⟩

/-- A pop reads a live slot. -/
theorem runRet_withHidden (h : AgreesOnLive stk s) : SameEffect (runRet s) (runRet (s.withHidden d st stk)) := by
  obtain hempty | hslot := Nat.eq_zero_or_pos s.sp.val
  · rw [runRet_of_empty hempty, runRet_of_empty (s := s.withHidden d st stk) hempty]
    exact ⟨rfl, d, st, stk, rfl, h⟩
  · rw [runRet_of_nonempty hslot, runRet_of_nonempty (s := s.withHidden d st stk) hslot]
    have htop : (s.withHidden d st stk).top = s.top := h ⟨s.sp.val - 1, by omega⟩ (Nat.sub_one_lt_of_lt hslot)
    rw [htop]
    exact ⟨rfl, d, st, stk, rfl, fun k hk => h k (Nat.lt_of_lt_of_le hk (Nat.sub_le ..))⟩

theorem runLdVxK_withHidden (choice : Vector Bool 16 → Nibble) (x : Nibble) (h : AgreesOnLive stk s) :
    SameEffect (runLdVxK choice x s) (runLdVxK choice x (s.withHidden d st stk)) := by
  unfold runLdVxK
  change SameEffect _ (if s.anyPressed then _ else _)
  split <;> exact ⟨rfl, d, st, stk, rfl, h⟩

theorem runLdVxI_withHidden (x : Nibble) (h : AgreesOnLive stk s) :
    SameEffect (runLdVxI x s) (runLdVxI x (s.withHidden d st stk)) := by
  unfold runLdVxI
  rw [State.setRegsFrom_withHidden]
  refine ⟨rfl, d, st, stk, rfl, ?_⟩
  simpa [AgreesOnLive] using h

/-- An instruction does not read what is hidden. -/
theorem effectUnder_withHidden (cfg : Config) (i : Instr) (h : AgreesOnLive stk s) :
    SameEffect (effectUnder cfg i s) (effectUnder cfg i (s.withHidden d st stk)) := by
  cases i with
  | call nnn => exact runCall_withHidden d st nnn h
  | ret => exact runRet_withHidden d st h
  | ldVxK x => exact runLdVxK_withHidden d st cfg.keyWaitChoice x h
  | ldVxI x => exact runLdVxI_withHidden d st x h
  | cls | drw => exact ⟨rfl, true, st, stk, rfl, h⟩
  | ldStVx x => exact ⟨rfl, d, s.reg x, stk, rfl, h⟩
  | _ => exact ⟨rfl, d, st, stk, rfl, h⟩

end

/-- Settles O54: both states fetch the same word, and its effect does not read what is hidden
(`effectUnder_withHidden`). -/
theorem invisibleStateIsNeverObserved : Obligations.InvisibleStateIsNeverObserved := by
  intro s s' t hsame hstep
  obtain ⟨d, st, stk, rfl, hlive⟩ := (sameToProgram_iff s s').mp hsame
  obtain ⟨hpc, ⟨i, hd, rfl⟩ | ⟨hd, rfl⟩⟩ := step_cases hstep
  · obtain ⟨hreport, hstate⟩ := effectUnder_withHidden d st params i hlive
    refine ⟨_, (step_decoded (s := s.withHidden d st stk) hpc hd).trans (exec_eq i _),
      (sameToProgram_iff _ _).mpr hstate, ?_⟩
    rw [stepReport_decoded hpc hd, stepReport_decoded (s := s.withHidden d st stk) hpc hd]
    exact congrArg some hreport
  · refine ⟨_, step_unrecognized (s := s.withHidden d st stk) hpc hd,
      (sameToProgram_iff _ _).mpr ⟨d, st, stk, rfl, hlive⟩, ?_⟩
    rw [stepReport_unrecognized hpc hd, stepReport_unrecognized (s := s.withHidden d st stk) hpc hd]

/-! ### The parameters -/

theorem execUnder_of_quietly {cfg : Config} {i : Instr} {s t : State} (h : effectUnder cfg i s = quietly t) :
    execUnder cfg i s = .next t := by
  rw [execUnder_eq, h, quietly]

/-- The parameters reach SHR, SHL, Fx0A and RND only. -/
theorem execUnder_eq_exec (cfg : Config) {i : Instr} (s : State) (hshift : ∀ x y, i ≠ .shr x y ∧ i ≠ .shl x y)
    (hkey : ∀ x, i ≠ .ldVxK x) (hrnd : ∀ x nn, i ≠ .rnd x nn) : execUnder cfg i s = exec i s := by
  cases i with
  | shr x y => exact absurd rfl (hshift x y).1
  | shl x y => exact absurd rfl (hshift x y).2
  | ldVxK x => exact absurd rfl (hkey x)
  | rnd x nn => exact absurd rfl (hrnd x nn)
  | _ => rfl

/-- The report of a step does not depend on the parameters. -/
theorem stepReportUnder_eq (cfg : Config) (s : State) : stepReportUnder cfg s = stepReport s := by
  rcases Nat.lt_or_ge 4094 s.pc.toNat with ho | hi
  · rw [stepReport_out_of_range ho, stepReportUnder, cycle_out_of_range cfg ho, Option.map_none]
  · cases hd : decodeWord (fetchedWord s) with
    | some i =>
      rw [stepReport_decoded hi hd, stepReportUnder, cycle_decoded cfg hi hd, Option.map_some, report_eq]
      exact congrArg some (reportUnder_eq cfg i s)
    | none => rw [stepReport_unrecognized hi hd, stepReportUnder, cycle_unrecognized cfg hi hd]; rfl

theorem effectUnder_rnd (cfg : Config) (x : Nibble) (nn : Byte) (s : State) : effectUnder cfg (.rnd x nn) s =
    quietly { s with
      seed := cfg.rngNext s.seed
      V := s.V.set x.toNat (BitVec.ofNat 8 ((cfg.rngNext s.seed).toNat % 256) &&& nn) x.isLt
      pc := s.pc + 2#16 } := by
  rw [← randomByte_eq_ofNat]; rfl

/-- Settles O60: the report and the `pc` are those of the tables whatever the parameters (`reportUnder_eq`,
`effectUnder_pc`), and RND and Fx0A are as `effectUnder_rnd` and the two branches of the key wait say. -/
theorem parametersReachOnlyTheirInstructions : Obligations.ParametersReachOnlyTheirInstructions :=
  ⟨fun cfg i s => ⟨(reportUnder_eq cfg i s).trans (report_eq i s).symm, ⟨_, execUnder_eq cfg i s, effectUnder_pc cfg i s⟩,
      execUnder_eq_exec cfg s⟩,
    stepReportUnder_eq,
    fun cfg x nn s => execUnder_of_quietly (effectUnder_rnd cfg x nn s),
    fun cfg x s => ⟨fun h => execUnder_of_quietly (runLdVxK_of_none_pressed cfg.keyWaitChoice x h),
      fun hpicks h => ⟨cfg.keyWaitChoice s.key, hpicks s.key h,
        execUnder_of_quietly (runLdVxK_of_pressed cfg.keyWaitChoice x h)⟩⟩⟩

end Sys2Proof.Machine
